-- ==== Sys2Proof/Word.lean ====
section
/-! DEFINITION. The byte, the only datum of the core's data path (spec 00_scope.md R11, R12; 20_memory.md R42). -/

namespace Sys2Proof

/-- A byte: an unsigned integer 0..255 (R11, R12). -/
abbrev Byte := BitVec 8

/-- A byte sequence, index 0 first: the first byte received or transmitted (R12, R42). -/
abbrev Bytes := List Byte

end Sys2Proof
end

