-- ==== Sys2Proof/Config.lean ====
section
/-! DEFINITION. What is fixed when a core is built: the two open parameters `MAX_IN` and `ACC_CAP`
(spec 00_scope.md R10), and the constants the source fixes (R11). -/

namespace Sys2Proof

/-- The parameters of R10, which the spec leaves open and a model takes as an argument.
`none` stands for `inf`. A core carries its own parameters in `Machine.State.config`. Values outside R10's
range are not shut out, since 95_test_vectors.md uses one (DESIGN CHOICE, notes/assumptions/12.md). -/
structure Config where
  /-- `MAX_IN`: the largest number of operand bytes one command may carry. -/
  maxIn : Option Nat
  /-- `ACC_CAP`: the capacity of the StreamingDecoder accumulator, in bytes. -/
  accCap : Option Nat
deriving DecidableEq, Repr

/-- The legal values of R10: `MAX_IN` is at least 257 or `inf`; `ACC_CAP` is any natural number or `inf`. -/
def Config.legal (c : Config) : Bool :=
  match c.maxIn with
  | none => true
  | some m => decide (257 ≤ m)

/-- `MAX_IN = inf`, `ACC_CAP = inf`: no size limit that the source does not set (R10).
DESIGN CHOICE (notes/assumptions/1.md): the parameters of `Machine.State.reset`. -/
def Config.unlimited : Config := { maxIn := none, accCap := none }

/-- R11: the delimiter, the literal byte 0x00. -/
abbrev delimiterByte : Byte := 0x00#8

/-- R11: the "no implied zero" sentinel and the overhead byte of a saturated block (R74). -/
abbrev sentinel : Byte := 0xFF#8

/-- R11: the overhead value of an empty block. -/
abbrev emptyOverhead : Byte := 0x01#8

/-- R11, R74: the largest number of data bytes in a block. -/
abbrev maxBlockData : Nat := 254

end Sys2Proof
end

