-- ==== Sys2Proof/Syntax.lean ====
section
/-! DEFINITION. The commands: the raw pair an issuer presents (spec 30_encoding.md R61) and the
instruction it stands for, one constructor per row of opcode_table.json (R67). -/

namespace Sys2Proof

/-- R61: a command `(op, D)` as presented on the command port. The length `n` of the operand is
carried by the transaction: it is the length of `d`. -/
structure Command where
  op : Byte
  d : Bytes
deriving DecidableEq, Repr

/-- R61: the three command formats that opcode_table.json names. -/
inductive CmdFormat where
  | cmdD
  | cmdN
  | cmdAny
deriving DecidableEq, Repr

/-- R67: one constructor per row of the opcode table. Each carries the operand `D` of its command,
SRESET, SSTAT and the reserved codes too: a command that carries one is answered by its rule (R65, R66). -/
inductive Instr where
  /-- `OPC = 0x01`: encode a payload (R100). -/
  | enc (d : Bytes)
  /-- `OPC = 0x02`: decode one frame (R130). -/
  | dec (d : Bytes)
  /-- `OPC = 0x03`: feed one chunk to the StreamingDecoder (R170). -/
  | feed (d : Bytes)
  /-- `OPC = 0x04`: reset the StreamingDecoder (R181). -/
  | sreset (d : Bytes)
  /-- `OPC = 0x05`: read the StreamingDecoder's status (R185). -/
  | sstat (d : Bytes)
  /-- `OPC = 0x00`: reserved (R65). -/
  | reservedZero (d : Bytes)
  /-- `OPC` in 0x06..0xFF: reserved (R65); the opcode byte is kept. -/
  | reservedHigh (opc : Byte) (d : Bytes)
deriving DecidableEq, Repr

/-- The operand `D` of an instruction. -/
def Instr.operand : Instr → Bytes
  | .enc d => d
  | .dec d => d
  | .feed d => d
  | .sreset d => d
  | .sstat d => d
  | .reservedZero d => d
  | .reservedHigh _ d => d

/-- The format of each row (R61, opcode_table.json). -/
def Instr.format : Instr → CmdFormat
  | .enc _ => .cmdD
  | .dec _ => .cmdD
  | .feed _ => .cmdD
  | .sreset _ => .cmdN
  | .sstat _ => .cmdN
  | .reservedZero _ => .cmdAny
  | .reservedHigh _ _ => .cmdAny

end Sys2Proof
end

