-- ==== Sys2Proof/WellFormed.lean ====
section
/-! DEFINITION. Which terms of `Instr` stand for a command: the opcode byte kept by the second
reserved row lies in the row's range (spec 30_encoding.md R65, R67). Every operand is well formed:
an operand a command may not carry is answered by a response (R64, R66), not shut out. -/

namespace Sys2Proof

/-- R65, R67: the second reserved row's opcodes are 0x06..0xFF. -/
def reservedOpcode (opc : Byte) : Bool := decide (6 ≤ opc.toNat)

/-- The instructions that some command `(op, D)` stands for. -/
def Instr.wellFormed : Instr → Bool
  | .enc _ => true
  | .dec _ => true
  | .feed _ => true
  | .sreset _ => true
  | .sstat _ => true
  | .reservedZero _ => true
  | .reservedHigh opc _ => reservedOpcode opc

end Sys2Proof
end

