-- ==== Sys2Proof/Decode.lean ====
section
/-! DEFINITION. The command codes (spec 30_encoding.md R67), the decoder from a command to its
instruction, total on any bytes, and the encoder written from the same table. -/

namespace Sys2Proof

/-- R67: ENC. -/
def opcEnc : Byte := 0x01#8
/-- R67: DEC. -/
def opcDec : Byte := 0x02#8
/-- R67: FEED. -/
def opcFeed : Byte := 0x03#8
/-- R67: SRESET. -/
def opcSreset : Byte := 0x04#8
/-- R67: SSTAT. -/
def opcSstat : Byte := 0x05#8
/-- R67: the first reserved code; an all-zero bus word is never a command (92_eei_decisions.md D3). -/
def opcReservedZero : Byte := 0x00#8

/-- R61, R67: the whole opcode byte selects the command; nothing else is packed into it. -/
def decodeCommand (c : Command) : Instr :=
  if c.op = opcEnc then .enc c.d
  else if c.op = opcDec then .dec c.d
  else if c.op = opcFeed then .feed c.d
  else if c.op = opcSreset then .sreset c.d
  else if c.op = opcSstat then .sstat c.d
  else if c.op = opcReservedZero then .reservedZero c.d
  else .reservedHigh c.op c.d

/-- Why a byte sequence is no command. -/
inductive DecodeError where
  /-- The sequence is empty: a command has an opcode byte (R61: "`op` is one byte"). -/
  | noOpcode
deriving DecidableEq, Repr

/-- A transaction's bytes, the opcode byte first and then the operand (95_test_vectors.md L3), to
the instruction. Every non-empty sequence is some command. -/
def decode : Bytes → Except DecodeError Instr
  | [] => .error .noOpcode
  | op :: d => .ok (decodeCommand { op := op, d := d })

/-- R67: the opcode byte of an instruction. -/
def Instr.opcode : Instr → Byte
  | .enc _ => opcEnc
  | .dec _ => opcDec
  | .feed _ => opcFeed
  | .sreset _ => opcSreset
  | .sstat _ => opcSstat
  | .reservedZero _ => opcReservedZero
  | .reservedHigh opc _ => opc

/-- The command an instruction stands for. -/
def encodeCommand (i : Instr) : Command := { op := i.opcode, d := i.operand }

/-- The bytes of an instruction's command: `op` and then `D` (95_test_vectors.md L3). -/
def encode (i : Instr) : Bytes := i.opcode :: i.operand

/-- One row of opcode_table.json: its opcodes `lo..hi` and its format. -/
structure OpcodeRow where
  lo : Nat
  hi : Nat
  format : CmdFormat
deriving DecidableEq, Repr

/-- The rows of opcode_table.json (R67), in the table's order. -/
def opcodeTable : List OpcodeRow :=
  [{ lo := 0x01, hi := 0x01, format := .cmdD },
   { lo := 0x02, hi := 0x02, format := .cmdD },
   { lo := 0x03, hi := 0x03, format := .cmdD },
   { lo := 0x04, hi := 0x04, format := .cmdN },
   { lo := 0x05, hi := 0x05, format := .cmdN },
   { lo := 0x00, hi := 0x00, format := .cmdAny },
   { lo := 0x06, hi := 0xFF, format := .cmdAny }]

/-- Whether an opcode byte belongs to a row. -/
def OpcodeRow.holds (r : OpcodeRow) (op : Byte) : Bool :=
  decide (r.lo ≤ op.toNat) && decide (op.toNat ≤ r.hi)

/-- The index in `opcodeTable` of the row a constructor stands for. -/
def Instr.rowIndex : Instr → Nat
  | .enc _ => 0
  | .dec _ => 1
  | .feed _ => 2
  | .sreset _ => 3
  | .sstat _ => 4
  | .reservedZero _ => 5
  | .reservedHigh _ _ => 6

/-- The bytes of a natural number, `k` of them, least significant byte first. -/
def wordBytes : Nat → Nat → Bytes
  | 0, _ => []
  | k + 1, w => BitVec.ofNat 8 w :: wordBytes k (w / 256)

/-- The command whose bits are `w`, `nbits` of them, bit 0 the least significant bit of the opcode
byte: the opcode byte, then one operand byte for every further eight bits. A row of eight bits has
the empty operand: the operand's length is carried by the transaction (R61). DESIGN CHOICE,
notes/assumptions/10.md. -/
def tableCommand (nbits w : Nat) : Command :=
  let v := w % 2 ^ nbits
  { op := BitVec.ofNat 8 v, d := wordBytes (nbits / 8 - 1) (v / 256) }

/-- What the decoder reads from an opcode-table word: never a refusal, since every opcode byte
has its row. -/
def decodeTableWord (nbits w : Nat) : Option Instr :=
  some (decodeCommand (tableCommand nbits w))

end Sys2Proof
end

