-- ==== Sys2Proof/Machine/State.lean ====
section
/-! DEFINITION. The state of the core as plain data: the persistent StreamingDecoder registers
(spec 10_state.md R20), the transient working registers (R30), the three ports (30_encoding.md R60)
and the parameters the core was built with (00_scope.md R10); and its value after power-on
(70_reset_and_hazards.md R231). -/

namespace Sys2Proof.Machine

/-- A byte position that may hold `⊥` (R13): `none` is `⊥`. -/
abbrev Slot := Option Byte

/-- An output buffer of ENC (R30): a byte sequence whose reserved slots hold `⊥`. -/
abbrev Buffer := List Slot

/-- The accumulator's storage: the positions that hold a byte, by index. A position that is not
listed holds `⊥` (R20, R26 (e)). The canonical form is `Memory.wf`. -/
abbrev Memory := List Host.Cell

/-- The five persistent registers of the StreamingDecoder (R20). -/
structure SdRegs where
  /-- `SD.OVH`, 8 bits: the overhead byte of the block being decoded, or the sentinel (R21). -/
  ovh : Byte
  /-- `SD.CPY`, 8 bits: the data bytes still to come in the block (R22). -/
  cpy : Byte
  /-- `SD.ACC`: the output accumulator (R23). -/
  acc : Memory
  /-- `SD.LEN`: the write cursor, a count (R24). -/
  len : Nat
  /-- `SD.OVF`, 1 bit: the frame in flight has needed more than `ACC_CAP` bytes (R25). -/
  ovf : Bool
deriving DecidableEq, Repr

/-- The working registers of ENC (R30). -/
structure EncRegs where
  /-- `E.OUT`: the output being built. -/
  out : Buffer
  /-- `E.SLOT`: the index of the current block's reserved overhead slot. -/
  slot : Nat
  /-- `E.CODE`, 8 bits: the running overhead value of the current block. -/
  code : Byte
  /-- `E.I`: the input cursor. -/
  i : Nat
deriving DecidableEq, Repr

/-- The working registers of DEC (R30). -/
structure DecRegs where
  /-- `B.OUT`: the decoded output. -/
  out : Bytes
  /-- `B.COPY`, 8 bits: the data bytes still to come in the current block. -/
  copy : Byte
  /-- `B.OVH`, 8 bits: the last overhead byte read. -/
  ovh : Byte
  /-- `B.FLAGS`, 8 bits: the validation flags (R33). -/
  flags : Byte
  /-- `B.I`: the input cursor. -/
  i : Nat
deriving DecidableEq, Repr

/-- The working registers of FEED (R30). -/
structure FeedRegs where
  /-- `F.I`: the input cursor. -/
  i : Nat
  /-- `F.NEV`: the number of events this FEED has emitted. -/
  nev : Nat
deriving DecidableEq, Repr

/-- What the core pushes to the consumer (60_exceptions.md R202, R203). The payload is a snapshot: a
value of its own, which no later step can change (20_memory.md R47). -/
inductive Event where
  /-- `FRAME(p)`: one decoded payload (R202). -/
  | frame (p : Bytes)
  /-- `FERR(cause, p)`: a frame error with the discarded partial payload (R203). -/
  | ferr (cause : Byte) (p : Bytes)
deriving DecidableEq, Repr

/-- A command's single response (30_encoding.md R62). -/
structure Response where
  status : Byte
  data : Bytes
  count : Nat
  flags : Byte
deriving DecidableEq, Repr

/-- One item on an output port: an event for the consumer or a response for the issuer. -/
inductive Output where
  | event (e : Event)
  | response (r : Response)
deriving DecidableEq, Repr

/-- The state of one core. -/
structure State where
  /-- The parameters this core was built with (R10); no step changes them (DESIGN CHOICE,
  notes/assumptions/2.md). -/
  config : Config
  /-- The StreamingDecoder's registers (R20). -/
  sd : SdRegs
  /-- `E.*`: `none` is `⊥`, the value outside ENC (R30). -/
  enc : Option EncRegs
  /-- `B.*`: `none` is `⊥`, the value outside DEC (R30). -/
  dec : Option DecRegs
  /-- `F.*`: `none` is `⊥`, the value outside FEED (R30). -/
  feed : Option FeedRegs
  /-- The command port (R60): the command now presented, then those the issuer presents after it, in
  issue order (00_scope.md R8, 20_memory.md R49). Empty: no command is waiting. DESIGN CHOICE,
  notes/assumptions/5.md. -/
  cmdPort : List Command
  /-- The event port and the response port, in the one total order of 20_memory.md R50 and R51: what
  the core has put on them, oldest first. `State.events` and `State.responses` are the two ports.
  DESIGN CHOICE, notes/assumptions/3.md. -/
  outPort : List Output
deriving DecidableEq, Repr

/-- The event port: the FRAME and FERR events, in the order they were emitted (R50, R205). -/
def State.events (s : State) : List Event :=
  s.outPort.filterMap fun o =>
    match o with
    | .event e => some e
    | .response _ => none

/-- The response port: one response per command, in command order (R49, R60). -/
def State.responses (s : State) : List Response :=
  s.outPort.filterMap fun o =>
    match o with
    | .event _ => none
    | .response r => some r

/-- Why the machine stops. Every fault is a read of `⊥`, which the spec has a model fault on
(R13; 93_implementation_defined.md 6, 7, 8). No state reached from power-on raises one. -/
inductive Fault where
  /-- FEED's snapshot reads a position of `SD.ACC` below `SD.LEN` that holds `⊥`. Only a state outside
  R26 (e) raises it. Safe: the spec names the fault (93, entry 6). -/
  | accBottom
  /-- A reserved slot of `E.OUT` that still holds `⊥` is read for ENC's response. R107 says that no
  command raises it. Safe (93, entry 7). -/
  | encSlotBottom
  /-- A transient register is read while its command is not running. No command raises it. Safe
  (93, entry 8). -/
  | transientBottom
deriving DecidableEq, Repr

/-- Why an instruction has no meaning. -/
inductive Refusal where
  /-- `exec` raises it for an instruction not modelled yet; no arm does. Safe. -/
  | notModelled (mnemonic : String)
deriving DecidableEq, Repr

/-- The outcome of one command or one step. -/
abbrev Result := Host.Outcome State Fault Refusal

/-- R29: the reset values. Every position of `SD.ACC` is `⊥`. -/
def SdRegs.reset : SdRegs := { ovh := 0xFF#8, cpy := 0x00#8, acc := [], len := 0, ovf := false }

/-- R231: a core built with the given parameters, after power-on. -/
def State.powerOn (c : Config) : State :=
  { config := c, sd := SdRegs.reset, enc := none, dec := none, feed := none, cmdPort := [], outPort := [] }

/-- R231: the core after power-on, with `MAX_IN = inf` and `ACC_CAP = inf`, which the spec leaves
open. DESIGN CHOICE for the two parameters only (notes/assumptions/1.md). -/
def State.reset : State := State.powerOn Config.unlimited

end Sys2Proof.Machine
end

