-- ==== Sys2Proof/Machine/Flags.lean ====
section
/-! DEFINITION. Every status code, flag and cause bit the spec gives (30_encoding.md R63;
10_state.md R27, R28, R33, R34; 60_exceptions.md R203), and how each is computed. -/

namespace Sys2Proof.Machine

/-! ### Response status codes (R63) -/

/-- 0x00 `OK`: the command ran. -/
def statusOk : Byte := 0x00#8
/-- 0x01 `ILLEGAL_OPCODE` (R65). -/
def statusIllegalOpcode : Byte := 0x01#8
/-- 0x02 `ILLEGAL_OPERAND` (R66). -/
def statusIllegalOperand : Byte := 0x02#8
/-- 0x03 `OPERAND_TOO_LONG` (R64). -/
def statusOperandTooLong : Byte := 0x03#8

/-- The flags byte of ENC, FEED and every command error (R32). -/
def noFlags : Byte := 0x00#8

/-! ### DEC flags (R33) -/

/-- Bit 0: an overhead position held 0x00 and the scan was aborted. -/
def flagMalf : Byte := 0x01#8
/-- Bit 1: the input ended inside a block. -/
def flagTrunc : Byte := 0x02#8
/-- Bit 2: a data position held 0x00 and was copied. -/
def flagZdata : Byte := 0x04#8
/-- Bit 3: the input had length 0. -/
def flagEmpty : Byte := 0x08#8

/-- `B.FLAGS[k] <- 1`, the bit given by its mask. -/
def setFlag (flags mask : Byte) : Byte := flags ||| mask

/-! ### FERR cause (R203) -/

/-- Bit 0 `DIB`: a delimiter arrived at a data position (R164). -/
def causeDib : Byte := 0x01#8
/-- Bit 1 `OVF`: the frame needed more than `ACC_CAP` bytes (R165). -/
def causeOvf : Byte := 0x02#8

/-- The cause of a delimiter inside a block: `DIB`, and `OVF` too if the frame overflowed (R164). -/
def dibCause (r : SdRegs) : Byte := causeDib ||| (if r.ovf then causeOvf else 0x00#8)

/-! ### Stream flags (R34) -/

/-- R27: `IDLE`. -/
def idle (r : SdRegs) : Bool :=
  decide (r.cpy = 0x00#8) && decide (r.ovh = sentinel) && decide (r.len = 0) && !r.ovf

/-- R28: `INFLIGHT` is `¬IDLE`. -/
def inflight (r : SdRegs) : Bool := !idle r

/-- One bit as a byte: `zext_8` (R12). -/
def bit (b : Bool) : Byte := if b then 0x01#8 else 0x00#8

/-- R34: bit 0 is `SD.OVF`, bit 1 is `INFLIGHT`, bits 7:2 are 0. -/
def streamFlags (r : SdRegs) : Byte := (bit (inflight r) <<< 1) ||| bit r.ovf

end Sys2Proof.Machine
end

