-- ==== Sys2Proof/Machine/Ops.lean ====
section
/-! DEFINITION. The operations the commands share: the memory primitives (spec 00_scope.md R13,
20_memory.md R45), the ports (30_encoding.md R60), raising a command error (R13, 60_exceptions.md
R201), raising a frame error (R207), and the StreamingDecoder's reset and append (42_streaming_decoder.md
R165, R166). -/

namespace Sys2Proof.Machine

/-- One command's sub-step after another: a fault or a refusal ends the command. -/
def andThen (o : Result) (k : State → Result) : Result :=
  match o with
  | .next s => k s
  | .fault f => .fault f
  | .refused r => .refused r

/-! ### Memory: `SD.ACC` -/

/-- The canonical form: indices strictly rising. A listed position holds a byte, an unlisted one `⊥`,
so no entry equals what an unlisted position reads as. -/
def Memory.wf : Memory → Bool
  | [] => true
  | [_] => true
  | c :: d :: m => decide (c.1 < d.1) && Memory.wf (d :: m)

/-- `MemRead(B, a, 1)` (R13): the byte at index `a`, or `none` for `⊥`. -/
def Memory.read : Memory → Nat → Slot
  | [], _ => none
  | c :: m, a => if c.1 = a then some c.2 else Memory.read m a

/-- `MemWrite(B, a, 1, v)` (R13), keeping the canonical form. -/
def Memory.write : Memory → Nat → Byte → Memory
  | [], a, v => [(a, v)]
  | c :: m, a, v =>
    if a < c.1 then (a, v) :: c :: m
    else if c.1 = a then (a, v) :: m
    else c :: Memory.write m a v

/-- `B[a..a+n)` (R12): `none` when a position read holds `⊥`. -/
def Memory.slice (m : Memory) : Nat → Nat → Option Bytes
  | _, 0 => some []
  | a, n + 1 =>
    match Memory.read m a with
    | none => none
    | some b => (Memory.slice m (a + 1) n).map (b :: ·)

/-! ### Buffers: `E.OUT` and `B.OUT` -/

/-- `Append(B, v)` (R13). -/
def bufAppend {α : Type} (b : List α) (v : α) : List α := b ++ [v]

/-- `MemWrite(B, i, 1, v)` (R13) on `E.OUT`: overwrite byte `i`. -/
def bufWrite (b : Buffer) (i : Nat) (v : Byte) : Buffer := b.set i (some v)

/-- All bytes of a buffer: `none` when one of them is `⊥`. -/
def bufBytes : Buffer → Option Bytes
  | [] => some []
  | none :: _ => none
  | some b :: m => (bufBytes m).map (b :: ·)

/-! ### Ports -/

/-- `respond(status, data, count, flags)` (R13, R60): the command's single response, after everything
already on the ports (R50). -/
def respond (r : Response) (s : State) : State :=
  { s with outPort := s.outPort ++ [.response r] }

/-- `emit` (R13): push an event to the consumer. The port is unbounded and the core never waits on it
(R205). -/
def emit (e : Event) (s : State) : State :=
  { s with outPort := s.outPort ++ [.event e] }

/-- Push the event a byte emits, if it emits one (R160). -/
def emitOption (e : Option Event) (s : State) : State :=
  match e with
  | none => s
  | some e => emit e s

/-- The issuer presents a command (R8, R60): it stands on the port after those presented before it, so
that the core takes them in the order the issuer presents them (R49). -/
def presentCommand (c : Command) (s : State) : State :=
  { s with cmdPort := s.cmdPort ++ [c] }

/-- The issuer presents commands one after another (R8, R49). -/
def presentCommands (cs : List Command) (s : State) : State :=
  cs.foldl (fun u c => presentCommand c u) s

/-- The command the core takes next, ahead of any that wait: a placement from outside the machine, not an
action of an agent of R8. With no command waiting it is `presentCommand` (notes/assumptions/5.md). -/
def placeNext (c : Command) (s : State) : State :=
  { s with cmdPort := c :: s.cmdPort }

/-- The core takes the command on the port (R49). With an empty port there is none: the core waits
(R231). -/
def fetch (s : State) : Option (Command × State) :=
  match s.cmdPort with
  | [] => none
  | c :: rest => some (c, { s with cmdPort := rest })

/-- The oldest item is taken off the output ports: an event by the consumer, a response by the issuer
(R8, R49, R50). An action of those agents, not a step of the core, which never waits on it (R205). -/
def takeOutput (s : State) : Option (Output × State) :=
  match s.outPort with
  | [] => none
  | o :: rest => some (o, { s with outPort := rest })

/-! ### Errors -/

/-- The response of a command error (R63 to R66). -/
def errorResponse (code : Byte) : Response := { status := code, data := [], count := 0, flags := noFlags }

/-- `raise E(info)` (R13): the command ends with the response status of command error `E` and makes no
other change (R64, R65, R66, R201). Nothing is saved, control moves nowhere and there is no return
(R207, R208). -/
def raiseError (code : Byte) (s : State) : State := respond (errorResponse code) s

/-- R166: every StreamingDecoder register at its reset value (R29), whatever it held. -/
def sdReset (_ : SdRegs) : SdRegs := SdRegs.reset

/-- The snapshot `SD.ACC[0..SD.LEN)` that an event carries (R23, R47). -/
def sdSnapshot (r : SdRegs) : Option Bytes := Memory.slice r.acc 0 r.len

/-- R207: a frame error emits FERR with the snapshot taken before the reset, then resets the
StreamingDecoder. `none`: the snapshot would read `⊥`. -/
def frameError (cause : Byte) (r : SdRegs) : Option (SdRegs × Option Event) :=
  match sdSnapshot r with
  | none => none
  | some p => some (sdReset r, some (.ferr cause p))

/-- R162 (c): a complete frame emits FRAME with the snapshot taken before the reset (R47), then resets
the StreamingDecoder. `none`: the snapshot would read `⊥`. -/
def frameComplete (r : SdRegs) : Option (SdRegs × Option Event) :=
  match sdSnapshot r with
  | none => none
  | some p => some (sdReset r, some (.frame p))

/-! ### The accumulator -/

/-- Whether `SD.LEN < ACC_CAP` (R165); always so when `ACC_CAP = inf`. -/
def hasRoom (c : Config) (len : Nat) : Bool :=
  match c.accCap with
  | none => true
  | some cap => decide (len < cap)

/-- R165: append one byte to the accumulator within its capacity; beyond it the byte is dropped and
`SD.OVF` is set. -/
def sdAppend (c : Config) (r : SdRegs) (v : Byte) : SdRegs :=
  if hasRoom c r.len then { r with acc := Memory.write r.acc r.len v, len := r.len + 1 }
  else { r with ovf := true }

/-- Power is lost and returns (R215, R230): the state is lost, and the same core is at its power-on
values (R231). A host event, not a command (DEDUCED, notes/assumptions/9.md). -/
def powerCycle (s : State) : State := State.powerOn s.config

end Sys2Proof.Machine
end

