-- ==== Sys2Proof/Machine/Operands.lean ====
section
/-! DEFINITION. The operand forms of the three command formats and the admission checks on them, in the
order of spec 30_encoding.md R68: opcode, then operand presence, then operand length. -/

namespace Sys2Proof.Machine

/-- R64: `n > MAX_IN`; never so when `MAX_IN = inf`. -/
def tooLong (c : Config) (d : Bytes) : Bool :=
  match c.maxIn with
  | none => false
  | some m => decide (m < d.length)

/-- R68: the status of the first check that fails, or `none` for a command that passes every check.
The format stands for the opcode check: `CMD-any` is the format of the reserved codes (R61). -/
def admission (f : CmdFormat) (c : Config) (d : Bytes) : Option Byte :=
  match f with
  | .cmdAny => some statusIllegalOpcode
  | .cmdN =>
    if d.length ≠ 0 then some statusIllegalOperand
    else if tooLong c d then some statusOperandTooLong
    else none
  | .cmdD => if tooLong c d then some statusOperandTooLong else none

/-- Run `k` when the command passes its checks; otherwise refuse it by the first failing check's
response (R64, R65, R66, R68, R201). -/
def admitted (f : CmdFormat) (d : Bytes) (s : State) (k : State → Result) : Result :=
  match admission f s.config d with
  | some code => .next (raiseError code s)
  | none => k s

end Sys2Proof.Machine
end

