-- ==== Sys2Proof/Machine/BlockDecoder.lean ====
section
/-! DEFINITION. The BlockDecoder: the command DEC (spec 41_block_decoder.md R130 to R135). -/

namespace Sys2Proof.Machine

/-- R30, R130: the working registers as DEC of `f` starts; `EMPTY` for an empty frame (R135). -/
def decInit (f : Bytes) : DecRegs :=
  { out := [], copy := 0x00#8, ovh := sentinel,
    flags := if f.length = 0 then setFlag 0x00#8 flagEmpty else 0x00#8, i := 0 }

/-- R132: a byte at a data position is copied whatever its value; a copied 0x00 sets `ZDATA`. -/
def decData (r : DecRegs) (b : Byte) : DecRegs :=
  { r with
    out := bufAppend r.out b
    flags := if b = 0x00#8 then setFlag r.flags flagZdata else r.flags
    copy := r.copy - 1#8
    i := r.i + 1 }

/-- R133: a byte at an overhead position: the implied zero of the block before, then the load of
`B.OVH` and `B.COPY`. -/
def decOverhead (r : DecRegs) (b : Byte) : DecRegs :=
  { r with
    out := if r.ovh ≠ sentinel then bufAppend r.out 0x00#8 else r.out
    ovh := b
    copy := b }

/-- R131: the scan stops at a malformed overhead byte; the cursor stays on it. -/
def decMalformed (r : DecRegs) : DecRegs := { r with flags := setFlag r.flags flagMalf }

/-- R133: the uniform decrement after a legal overhead byte; the byte is consumed. -/
def decBlockOpened (r : DecRegs) : DecRegs := { r with copy := r.copy - 1#8, i := r.i + 1 }

/-- R135: the end of the input; `TRUNC` inside a block. -/
def decEnd (r : DecRegs) : DecRegs :=
  if r.copy ≠ 0x00#8 then { r with flags := setFlag r.flags flagTrunc } else r

/-- R130's loop over the bytes still to read. -/
def decLoop : Bytes → DecRegs → DecRegs
  | [], r => decEnd r
  | b :: f, r =>
    if r.copy ≠ 0x00#8 then decLoop f (decData r b)
    else if b = 0x00#8 then decMalformed (decOverhead r b)
    else decLoop f (decBlockOpened (decOverhead r b))

/-- R30: DEC's working registers come into being. -/
def decBegin (f : Bytes) (s : State) : State := { s with dec := some (decInit f) }

/-- R130: the scan, on the working registers. -/
def decScan (f : Bytes) (s : State) : Result :=
  match s.dec with
  | none => .fault .transientBottom
  | some r => .next { s with dec := some (decLoop f r) }

/-- The response of R130: `count` is the number of bytes consumed (R134), which is `B.I`: the index of
the aborting byte, or the length of the frame. -/
def decResponse (r : DecRegs) : Response :=
  { status := statusOk, data := r.out, count := r.i, flags := r.flags }

/-- R130: respond; the working registers are gone (R30). -/
def decRespond (s : State) : Result :=
  match s.dec with
  | none => .fault .transientBottom
  | some r => .next (respond (decResponse r) { s with dec := none })

/-- R130: `DEC [f...]`. No persistent register is read or written. -/
def execDec (d : Bytes) (s : State) : Result :=
  admitted .cmdD d s fun s => andThen (decScan d (decBegin d s)) decRespond

/-- R130: the response of `DEC f` as a function of the frame. -/
def decOf (f : Bytes) : Response := decResponse (decLoop f (decInit f))

end Sys2Proof.Machine
end

