-- ==== Sys2Proof/Machine/Encoder.lean ====
section
/-! DEFINITION. The Encoder: the command ENC (spec 40_encoder.md R100 to R103). -/

namespace Sys2Proof.Machine

/-- R30, R100: the working registers as ENC starts. -/
def encInit : EncRegs := { out := [none], slot := 0, code := 0x01#8, i := 0 }

/-- R101: write the running overhead value into the block's slot, reserve a new slot, restart the
overhead value. The cursor does not move. -/
def closeBlock (r : EncRegs) : EncRegs :=
  { r with out := bufAppend (bufWrite r.out r.slot r.code) none, slot := r.out.length, code := 0x01#8 }

/-- R100: a data byte is appended to the open block. -/
def encAppend (r : EncRegs) (b : Byte) : EncRegs :=
  { r with out := bufAppend r.out (some b), code := r.code + 1#8 }

/-- One pass of R100's loop over payload `p`: a saturated block is closed first, and the byte stays for
the next pass (R102). -/
def encPass (p : Bytes) (r : EncRegs) : EncRegs :=
  match p[r.i]? with
  | none => r
  | some b =>
    if r.code = 0xFF#8 then closeBlock r
    else if b ≠ 0x00#8 then { encAppend r b with i := r.i + 1 }
    else { closeBlock r with i := r.i + 1 }

/-- R100's loop, at most `k` passes: `while E.I < len(p)`. -/
def encLoop : Nat → Bytes → EncRegs → EncRegs
  | 0, _, r => r
  | k + 1, p, r => if r.i < p.length then encLoop k p (encPass p r) else r

/-- R100, R209: the loop runs at most `len(p) + floor(len(p)/254)` times. -/
def encPasses (p : Bytes) : Nat := p.length + p.length / maxBlockData

/-- Close the open block if it is saturated. -/
def closeSaturated (r : EncRegs) : EncRegs := if r.code = 0xFF#8 then closeBlock r else r

/-- The final write: the open block's overhead value goes into its slot. -/
def writeSlot (r : EncRegs) : EncRegs := { r with out := bufWrite r.out r.slot r.code }

/-- R103: a block still saturated at the end of the scan is closed, and then the final block. -/
def encFinish (r : EncRegs) : EncRegs := writeSlot (closeSaturated r)

/-- R30: ENC's working registers come into being. -/
def encBegin (s : State) : State := { s with enc := some encInit }

/-- R100: the scan and the end of the scan, on the working registers. -/
def encScan (p : Bytes) (s : State) : Result :=
  match s.enc with
  | none => .fault .transientBottom
  | some r => .next { s with enc := some (encFinish (encLoop (encPasses p) p r)) }

/-- The response of R100: the encoded frame and its length. -/
def encResponse (f : Bytes) : Response := { status := statusOk, data := f, count := f.length, flags := noFlags }

/-- R100: respond with `E.OUT`; the working registers are gone (R30). -/
def encRespond (s : State) : Result :=
  match s.enc with
  | none => .fault .transientBottom
  | some r =>
    match bufBytes r.out with
    | none => .fault .encSlotBottom
    | some out => .next (respond (encResponse out) { s with enc := none })

/-- R100: `ENC [p...]`. No persistent register is read or written. -/
def execEnc (d : Bytes) (s : State) : Result :=
  admitted .cmdD d s fun s => andThen (encScan d (encBegin s)) encRespond

/-- R100: `enc(p)`, the encoded frame as a function of the payload. `none`: a slot still holds `⊥`,
which R107 rules out. -/
def encData (p : Bytes) : Option Bytes := bufBytes (encFinish (encLoop (encPasses p) p encInit)).out

/-- R104: one byte of the equivalent loop, in which a block is closed as soon as it is saturated. -/
def encImmediateByte (r : EncRegs) (b : Byte) : EncRegs :=
  if b = 0x00#8 then closeBlock r else closeSaturated (encAppend r b)

/-- R104: the equivalent form's `E.OUT`. -/
def encImmediate (p : Bytes) : Buffer := (writeSlot (p.foldl encImmediateByte encInit)).out

end Sys2Proof.Machine
end

