-- ==== Sys2Proof/Machine/Reserved.lean ====
section
/-! DEFINITION. The reserved codes (spec 30_encoding.md R65): each is refused by a response, with no other
effect, and the opcode check comes before every other check (R68). -/

namespace Sys2Proof.Machine

/-- R65: `OPC = 0x00`: `ILLEGAL_OPCODE`, whatever the operand. -/
def execReservedZero (d : Bytes) (s : State) : Result := admitted .cmdAny d s .next

/-- R65: `OPC` in 0x06..0xFF: `ILLEGAL_OPCODE`, whatever the opcode and the operand. -/
def execReservedHigh (_opc : Byte) (d : Bytes) (s : State) : Result := admitted .cmdAny d s .next

end Sys2Proof.Machine
end

