-- ==== Sys2Proof/Machine/StreamDecoder.lean ====
section
/-! DEFINITION. The StreamingDecoder: the per-byte step SD_STEP (spec 42_streaming_decoder.md R160 to
R166) and the commands FEED, SRESET and SSTAT (R170, R181, R185). -/

namespace Sys2Proof.Machine

/-! ### The per-byte step -/

/-- R161: a data byte is appended and `SD.CPY` counts down. -/
def dataByte (c : Config) (r : SdRegs) (b : Byte) : SdRegs :=
  let r' := sdAppend c r b
  { r' with cpy := r'.cpy - 1#8 }

/-- R163: a new block starts, after the implied zero of the block before. -/
def overheadByte (c : Config) (r : SdRegs) (b : Byte) : SdRegs :=
  let r' := if r.ovh ≠ sentinel then sdAppend c r 0x00#8 else r
  { r' with ovh := b, cpy := b - 1#8 }

/-- R162: the frame delimiter: ignored when idle, a frame error after an overflow, else a complete
frame. It appends nothing and removes nothing. `none`: the snapshot would read `⊥`. -/
def delimiter (r : SdRegs) : Option (SdRegs × Option Event) :=
  if idle r then some (r, none)
  else if r.ovf then frameError causeOvf r
  else frameComplete r

/-- R164: a delimiter inside a block: a frame error, and the decoder resynchronises on this byte. -/
def delimInBlock (r : SdRegs) : Option (SdRegs × Option Event) := frameError (dibCause r) r

/-- R160, R79: one received byte. At most one event. `none`: the snapshot would read `⊥`. -/
def sdStep (c : Config) (r : SdRegs) (b : Byte) : Option (SdRegs × Option Event) :=
  if r.cpy ≠ 0x00#8 then
    if b ≠ 0x00#8 then some (dataByte c r b, none) else delimInBlock r
  else if b = 0x00#8 then delimiter r
  else some (overheadByte c r b, none)

/-- The bytes of a chunk in order: the registers after them and the events they emit (R170, R172). -/
def sdRun (c : Config) : SdRegs → Bytes → Option (SdRegs × List Event)
  | r, [] => some (r, [])
  | r, b :: bs =>
    match sdStep c r b with
    | none => none
    | some (r', e) =>
      match sdRun c r' bs with
      | none => none
      | some (r'', es) => some (r'', e.toList ++ es)

/-! ### FEED -/

/-- R30, R170: FEED's working registers come into being. -/
def feedBegin (s : State) : State := { s with feed := some { i := 0, nev := 0 } }

/-- R170: one pass of the loop. The event is emitted at its byte (R50). -/
def feedByte (b : Byte) (s : State) : Result :=
  match s.feed with
  | none => .fault .transientBottom
  | some f =>
    match sdStep s.config s.sd b with
    | none => .fault .accBottom
    | some (r, e) =>
      .next (emitOption e { s with sd := r, feed := some { i := f.i + 1, nev := f.nev + e.toList.length } })

/-- R170's loop: a left fold of the step over the chunk. -/
def feedBytes : Bytes → State → Result
  | [], s => .next s
  | b :: bs, s => andThen (feedByte b s) (feedBytes bs)

/-- The response of R170: `count` is the number of events. -/
def feedResponse (nev : Nat) : Response := { status := statusOk, data := [], count := nev, flags := noFlags }

/-- R170: respond with the number of events, after all of them (R50); the working registers are gone. -/
def feedRespond (s : State) : Result :=
  match s.feed with
  | none => .fault .transientBottom
  | some f => .next (respond (feedResponse f.nev) { s with feed := none })

/-- R170: `FEED [c...]`. -/
def execFeed (d : Bytes) (s : State) : Result :=
  admitted .cmdD d s fun s => andThen (feedBytes d (feedBegin s)) feedRespond

/-! ### SRESET and SSTAT -/

/-- The response of R181, from the registers before the reset. -/
def sresetResponse (r : SdRegs) : Response :=
  { status := statusOk, data := [], count := r.len, flags := streamFlags r }

/-- R181: reset the StreamingDecoder, reporting the discarded length and the stream flags from before.
No event, even with a frame in flight. -/
def sresetRun (s : State) : Result :=
  .next (respond (sresetResponse s.sd) { s with sd := sdReset s.sd })

/-- R181: `SRESET`. -/
def execSreset (d : Bytes) (s : State) : Result := admitted .cmdN d s sresetRun

/-- The response of R185. The contents of `SD.ACC` are not shown (R37). -/
def sstatResponse (r : SdRegs) : Response :=
  { status := statusOk, data := [r.ovh, r.cpy], count := r.len, flags := streamFlags r }

/-- R185: read the status; no register changes. -/
def sstatRun (s : State) : Result := .next (respond (sstatResponse s.sd) s)

/-- R185: `SSTAT`. -/
def execSstat (d : Bytes) (s : State) : Result := admitted .cmdN d s sstatRun

end Sys2Proof.Machine
end

