-- ==== Sys2Proof/Machine/Dispatch.lean ====
section
/-! DEFINITION. One arm per command of spec 30_encoding.md R67. -/

namespace Sys2Proof.Machine

def exec (i : Instr) (s : State) : Host.Outcome State Fault Refusal :=
  match i with
  | .enc d => Sys2Proof.Machine.execEnc d s
  | .dec d => Sys2Proof.Machine.execDec d s
  | .feed d => Sys2Proof.Machine.execFeed d s
  | .sreset d => Sys2Proof.Machine.execSreset d s
  | .sstat d => Sys2Proof.Machine.execSstat d s
  | .reservedZero d => Sys2Proof.Machine.execReservedZero d s
  | .reservedHigh opc d => Sys2Proof.Machine.execReservedHigh opc d s

end Sys2Proof.Machine
end

