-- ==== Sys2Proof/Machine/Step.lean ====
section
/-! DEFINITION. One step of the core: one command, whole (spec 20_memory.md R45, R49). -/

namespace Sys2Proof.Machine

/-- The core takes the command on its port and executes it as one atomic step (R8, R45, R49). With no
command on the port it waits, and an idle core holds its registers (70_reset_and_hazards.md R231,
60_exceptions.md R215): the state does not change (DEDUCED, notes/assumptions/4.md). -/
def step (s : State) : Host.Outcome State Fault Refusal :=
  match fetch s with
  | none => .next s
  | some (c, s') => exec (decodeCommand c) s'

/-- The command of an opcode-table word is the next one the core takes, whatever else waits on the port. -/
def State.withFetchWord (s : State) (nbits w : Nat) : State := placeNext (tableCommand nbits w) s

end Sys2Proof.Machine
end

