-- ==== Sys2Proof/Machine/Wire.lean ====
section
/-! DEFINITION. The wire format the core produces and consumes (spec 30_encoding.md R70 to R80) and the
closed form of an encoded frame (40_encoder.md R105, R106). No command calls these definitions: they are
the format as the spec describes it, for statements to hold the commands against. -/

namespace Sys2Proof.Machine

/-- R71: a block: an overhead byte and its data bytes. -/
structure Block where
  ovh : Byte
  data : Bytes
deriving DecidableEq, Repr

/-- R72: the data count `v − 1` of an overhead byte. -/
def dataCount (v : Byte) : Nat := v.toNat - 1

/-- R74: a saturated block implies no zero after itself. -/
def Block.saturated (b : Block) : Bool := decide (b.ovh = sentinel)

/-- R71: a complete block: a non-zero overhead byte, `v − 1` data bytes, each non-zero. -/
def Block.complete (b : Block) : Bool :=
  decide (b.ovh ≠ 0x00#8) && decide (b.data.length = dataCount b.ovh) && b.data.all fun x => decide (x ≠ 0x00#8)

/-- R133: a block of the announced shape, as DEC reads it: a non-zero overhead byte and `v − 1` data bytes,
whatever their values (R132). -/
def Block.shaped (b : Block) : Bool := decide (b.ovh ≠ 0x00#8) && decide (b.data.length = dataCount b.ovh)

/-- R132: some data byte is 0x00. -/
def hasZeroData (bs : List Block) : Bool := bs.any fun b => b.data.any fun x => decide (x = 0x00#8)

/-- R71: the bytes of a block: the overhead byte, then the data. -/
def Block.bytes (b : Block) : Bytes := b.ovh :: b.data

/-- R73: `z(B)`, the zero a block implies before the next one. -/
def impliedZero (b : Block) : Bytes := if b.saturated then [] else [0x00#8]

/-- R71: the bytes of a concatenation of blocks. -/
def frameBytes (bs : List Block) : Bytes := bs.flatMap Block.bytes

/-- R73: the payload of a frame: an implied zero between two blocks, none after the last. -/
def framePayload : List Block → Bytes
  | [] => []
  | [b] => b.data
  | b :: b' :: bs => b.data ++ impliedZero b ++ framePayload (b' :: bs)

/-- R16, R71, R137: `bs` is a non-empty list of complete blocks. -/
def isFrame (bs : List Block) : Bool := !bs.isEmpty && bs.all Block.complete

/-- R133: the implied zero that stands before the next block, were there one: none before the first block
and none after a saturated one. -/
def zeroAfter (bs : List Block) : Bytes :=
  match bs.getLast? with
  | none => []
  | some b => impliedZero b

/-- R74: the frame ends with a saturated block. -/
def endsSaturated (bs : List Block) : Bool :=
  match bs.getLast? with
  | none => false
  | some b => b.saturated

/-- R76: find the blocks from the overhead bytes: a block that starts at offset `k` ends at `k + v − 1`,
and the next starts at `k + v`. At most `n` blocks; `none` when an overhead byte is 0x00 or a block is
cut short. -/
def parseBlocks : Nat → Bytes → Option (List Block)
  | _, [] => some []
  | 0, _ :: _ => none
  | n + 1, v :: f =>
    if v = 0x00#8 then none
    else if f.length < dataCount v then none
    else (parseBlocks n (f.drop (dataCount v))).map ({ ovh := v, data := f.take (dataCount v) } :: ·)

/-- R76: the blocks of a frame. -/
def parseFrame (f : Bytes) : Option (List Block) := parseBlocks f.length f

/-- R70: the unit transmitted on the wire: the frame, then the delimiter. -/
def wireUnit (f : Bytes) : Bytes := f ++ [delimiterByte]

/-- R75: the length of the run of non-zero bytes that ends the payload. -/
def lastRun (p : Bytes) : Nat := (p.reverse.takeWhile fun x => decide (x ≠ 0x00#8)).length

/-- R75: the last data run is saturated: its length is a positive multiple of 254. -/
def needsTail (p : Bytes) : Bool := decide (0 < lastRun p) && decide (lastRun p % maxBlockData = 0)

/-- R105: the segments of a payload: split at its zero bytes, which are dropped. -/
def segments : Bytes → List Bytes
  | [] => [[]]
  | b :: p =>
    match segments p with
    | [] => [[]]
    | s :: ss => if b = 0x00#8 then [] :: s :: ss else (b :: s) :: ss

/-- R105: the blocks of a segment: `m` saturated blocks and the rest. -/
def segmentBlocks : Nat → Bytes → List Block
  | 0, r => [{ ovh := BitVec.ofNat 8 (r.length + 1), data := r }]
  | m + 1, s => { ovh := 0xFF#8, data := s.take maxBlockData } :: segmentBlocks m (s.drop maxBlockData)

/-- R105: the blocks of `ENC(p).data`. -/
def encBlocks (p : Bytes) : List Block := (segments p).flatMap fun s => segmentBlocks (s.length / maxBlockData) s

/-- R105: the closed form of `ENC(p).data`. -/
def encClosed (p : Bytes) : Bytes := frameBytes (encBlocks p)

/-- R106: the encoded length. -/
def encodedLength (p : Bytes) : Nat :=
  p.length + 1 + ((segments p).map fun s => s.length / maxBlockData).sum

end Sys2Proof.Machine
end

