-- ==== Sys2Proof/Machine/Assembler.lean ====
section
/-! DEFINITION. The spec's assembler syntax for commands and its pseudo-instructions (spec 30_encoding.md
R82, R83). They are expanded when a program is assembled, not in the core. DESIGN CHOICE for the points R82
leaves open (notes/assumptions/11.md). -/

namespace Sys2Proof.Machine

/-! ### Pseudo-instructions (R83) -/

/-- `FEEDF [p...]`: one whole frame and its delimiter. -/
def asmFeedf (p : Bytes) : Option Command := (encData p).map fun f => { op := opcFeed, d := wireUnit f }

/-- `FEEDB hh`: a single byte. -/
def asmFeedb (b : Byte) : Command := { op := opcFeed, d := [b] }

/-- `NOPC`: `FEED []`, which runs and changes nothing (R171). -/
def asmNopc : Command := { op := opcFeed, d := [] }

/-- `OP.RAW hh [..]`: any opcode byte with any operand. -/
def asmRaw (op : Byte) (d : Bytes) : Command := { op := op, d := d }

/-! ### The text (R82) -/

/-- A token of one line. -/
inductive Token where
  | word (w : List Char)
  | lbracket
  | rbracket
  | comma
  | times
deriving DecidableEq, Repr

/-- The token of a word read so far, if there is one. -/
def wordToken (w : List Char) : List Token := if w.isEmpty then [] else [.word w]

/-- The tokens of a line; `w` is the word read so far. A `;` ends the line. -/
def tokens : List Char → List Char → List Token
  | w, [] => wordToken w
  | w, ch :: cs =>
    if ch = ';' then wordToken w
    else if ch = ' ' ∨ ch = '\t' then wordToken w ++ tokens [] cs
    else if ch = '[' then wordToken w ++ .lbracket :: tokens [] cs
    else if ch = ']' then wordToken w ++ .rbracket :: tokens [] cs
    else if ch = ',' then wordToken w ++ .comma :: tokens [] cs
    else if ch = '×' then wordToken w ++ .times :: tokens [] cs
    else tokens (w ++ [ch]) cs

/-- The value of a digit in the given base. -/
def digitValue (base : Nat) (ch : Char) : Option Nat :=
  let v := if '0' ≤ ch ∧ ch ≤ '9' then some (ch.toNat - '0'.toNat)
    else if 'A' ≤ ch ∧ ch ≤ 'F' then some (ch.toNat - 'A'.toNat + 10)
    else if 'a' ≤ ch ∧ ch ≤ 'f' then some (ch.toNat - 'a'.toNat + 10)
    else none
  v.bind fun n => if n < base then some n else none

/-- A number in the given base, its most significant digit first; `n` is the value read so far. -/
def numberFrom (base : Nat) : Nat → List Char → Option Nat
  | n, [] => some n
  | n, ch :: cs => (digitValue base ch).bind fun v => numberFrom base (n * base + v) cs

/-- A two-digit hexadecimal byte. -/
def hexByte (w : List Char) : Option Byte :=
  if w.length = 2 then (numberFrom 16 0 w).map (BitVec.ofNat 8) else none

/-- A decimal count. -/
def decimalCount (w : List Char) : Option Nat := if w.isEmpty then none else numberFrom 10 0 w

/-- The items of an operand after its `[`, up to the closing `]`: bytes and `v × k` runs. -/
def operandItems : List Token → Option Bytes
  | [.word v, .rbracket] => (hexByte v).map fun b => [b]
  | [.word v, .times, .word k, .rbracket] =>
    (hexByte v).bind fun b => (decimalCount k).map fun n => List.replicate n b
  | .word v :: .comma :: ts => (hexByte v).bind fun b => (operandItems ts).map fun d => b :: d
  | .word v :: .times :: .word k :: .comma :: ts =>
    (hexByte v).bind fun b => (decimalCount k).bind fun n =>
      (operandItems ts).map fun d => List.replicate n b ++ d
  | _ => none

/-- A bracketed operand; `[]` is the empty one. -/
def operandText : List Token → Option Bytes
  | [.lbracket, .rbracket] => some []
  | .lbracket :: ts => operandItems ts
  | _ => none

/-- The mnemonics of R67 and R83. -/
inductive Mnemonic where
  | enc | dec | feed | sreset | sstat | feedf | feedb | nopc | opRaw
deriving DecidableEq, Repr

/-- Mnemonics are case-insensitive. -/
def mnemonicOf (w : List Char) : Option Mnemonic :=
  let u := w.map Char.toUpper
  if u = ['E', 'N', 'C'] then some .enc
  else if u = ['D', 'E', 'C'] then some .dec
  else if u = ['F', 'E', 'E', 'D'] then some .feed
  else if u = ['S', 'R', 'E', 'S', 'E', 'T'] then some .sreset
  else if u = ['S', 'S', 'T', 'A', 'T'] then some .sstat
  else if u = ['F', 'E', 'E', 'D', 'F'] then some .feedf
  else if u = ['F', 'E', 'E', 'D', 'B'] then some .feedb
  else if u = ['N', 'O', 'P', 'C'] then some .nopc
  else if u = ['O', 'P', '.', 'R', 'A', 'W'] then some .opRaw
  else none

/-- The command of a mnemonic and the tokens after it: `op` is the mnemonic's `OPC`, `D` the listed
bytes in order (R82); a pseudo-instruction expands (R83). -/
def assembleTokens (m : Mnemonic) (ts : List Token) : Option Command :=
  match m with
  | .enc => (operandText ts).map fun d => { op := opcEnc, d := d }
  | .dec => (operandText ts).map fun d => { op := opcDec, d := d }
  | .feed => (operandText ts).map fun d => { op := opcFeed, d := d }
  | .sreset => if ts = [] then some { op := opcSreset, d := [] } else none
  | .sstat => if ts = [] then some { op := opcSstat, d := [] } else none
  | .feedf => (operandText ts).bind asmFeedf
  | .feedb =>
    match ts with
    | [.word h] => (hexByte h).map asmFeedb
    | _ => none
  | .nopc => if ts = [] then some asmNopc else none
  | .opRaw =>
    match ts with
    | .word h :: rest => (hexByte h).bind fun op => (operandText rest).map fun d => asmRaw op d
    | _ => none

/-- One line of a program. `none`: the line holds no command, or is not in the syntax. -/
def assembleLine (line : List Char) : Option Command :=
  match tokens [] line with
  | .word m :: ts => (mnemonicOf m).bind fun m => assembleTokens m ts
  | _ => none

end Sys2Proof.Machine
end

