-- ==== Sys2Proof/Safety.lean ====
section
/-! DEFINITION. What a good state is (spec 10_state.md R26, R30), and what a safe run is. -/

namespace Sys2Proof.Machine

/-- R26: the invariants of the StreamingDecoder's registers, and the canonical form of `SD.ACC`. -/
structure SdInv (c : Config) (r : SdRegs) : Prop where
  /-- R26 (a). -/
  ovh_pos : 1 ≤ r.ovh.toNat
  /-- R26 (b). -/
  cpy_le : r.cpy.toNat ≤ r.ovh.toNat - 1
  /-- R26 (c). -/
  len_le : ∀ cap, c.accCap = some cap → r.len ≤ cap
  /-- R26 (d); with `ACC_CAP = inf`, `SD.OVF` is always 0 (R25). -/
  ovf_full : r.ovf = true → c.accCap = some r.len
  /-- The model's own (notes/assumptions/7.md): `SD.ACC` is in canonical form. -/
  acc_wf : Memory.wf r.acc = true
  /-- R26 (e): the positions that hold a value are those below `SD.LEN`. -/
  acc_holds : ∀ a, (Memory.read r.acc a).isSome = decide (a < r.len)

/-- R30: between commands every transient working register is `⊥`. -/
def Quiet (s : State) : Prop := s.enc = none ∧ s.dec = none ∧ s.feed = none

/-- A good state: what holds of the core between any two commands. -/
structure Inv (s : State) : Prop where
  sd : SdInv s.config s.sd
  quiet : Quiet s

/-- R37: an item of the output ports with every payload byte of an event taken as 0x00: what is left is the
event's kind, its cause, the length of its payload and its place; a response stands whole. -/
def hidePayload : Output → Output
  | .event (.frame p) => .event (.frame (p.map fun _ => 0x00#8))
  | .event (.ferr cause p) => .event (.ferr cause (p.map fun _ => 0x00#8))
  | .response r => .response r

/-- The issuer's commands one after another, each whole before the next (R49). -/
def runCommands : List Instr → State → Result
  | [], s => .next s
  | i :: is, s => andThen (exec i s) (runCommands is)

/-- The core runs `n` steps without a fault or a refusal (R209). -/
def SafeFor (n : Nat) (s : State) : Prop := ∃ t, Host.Core.run Sys2Proof.core n s = .next t

end Sys2Proof.Machine
end

