-- ==== Sys2Proof/Certificates/Slice0/Obligations.lean ====
section
/-! DEFINITION. The statements about the core, each from the rules of spec/ it names. A command's next
state is written out as an update of the state before it, so a statement of a result is also its frame:
every field the update does not name is unchanged. -/

open Sys2Proof Sys2Proof.Machine

/-! ### Commands and their encoding -/

/-- R67: the opcode map. Every opcode byte selects the command of its row, whatever the operand. -/
def Obligations.OpcodeMapSelectsCommand : Prop :=
  ∀ d : Bytes,
    decode (0x00#8 :: d) = .ok (.reservedZero d) ∧ decode (0x01#8 :: d) = .ok (.enc d) ∧
    decode (0x02#8 :: d) = .ok (.dec d) ∧ decode (0x03#8 :: d) = .ok (.feed d) ∧
    decode (0x04#8 :: d) = .ok (.sreset d) ∧ decode (0x05#8 :: d) = .ok (.sstat d) ∧
    ∀ op : Byte, 6 ≤ op.toNat → decode (op :: d) = .ok (.reservedHigh op d)

/-- R61, R67: decoding an encoded well-formed instruction gives it back with its whole operand, and
every non-empty byte sequence is the encoding of exactly the instruction it decodes to. -/
def Obligations.DecodeEncodeRoundTrip : Prop :=
  (∀ i : Instr, i.wellFormed = true → decode (encode i) = .ok i) ∧
  (∀ bs : Bytes, bs ≠ [] → ∃ i : Instr, i.wellFormed = true ∧ decode bs = .ok i ∧ encode i = bs)

/-- R8, R45, R49: a step takes the command on the port and executes what it decodes to, as one step. -/
def Obligations.StepRunsDecodedCommand : Prop :=
  ∀ (s : State) (c : Command) (rest : List Command) (i : Instr),
    s.cmdPort = c :: rest → decode (c.op :: c.d) = .ok i → step s = exec i { s with cmdPort := rest }

/-- R215, R231: with no command on the port the core waits and holds its state (the model's reading,
notes/assumptions/4.md). -/
def Obligations.EmptyPortWaits : Prop :=
  ∀ s : State, s.cmdPort = [] → step s = .next s

/-! ### Power-on -/

/-- R231: every piece of state after power-on, whatever the parameters; and any command may come first. -/
def Obligations.PowerOnState : Prop :=
  ∀ c : Config,
    (State.powerOn c).sd.ovh = 0xFF#8 ∧ (State.powerOn c).sd.cpy = 0x00#8 ∧ (State.powerOn c).sd.len = 0 ∧
    (State.powerOn c).sd.ovf = false ∧ (∀ a, Memory.read (State.powerOn c).sd.acc a = none) ∧
    idle (State.powerOn c).sd = true ∧
    (State.powerOn c).enc = none ∧ (State.powerOn c).dec = none ∧ (State.powerOn c).feed = none ∧
    (State.powerOn c).cmdPort = [] ∧ (State.powerOn c).events = [] ∧ (State.powerOn c).responses = [] ∧
    ∀ i : Instr, ∃ t, exec i (State.powerOn c) = .next t

/-- R215, R230: power loss and return lose the state; the same core is at its power-on values. -/
def Obligations.PowerCycleRestoresPowerOn : Prop :=
  ∀ s : State, powerCycle s = State.powerOn s.config ∧ (powerCycle s).config = s.config ∧ Inv (powerCycle s)

/-! ### Admission and refusals -/

/-- R65: a command whose opcode byte is 0x00 or lies in 0x06..0xFF, with any operand and in any state, is
refused with `ILLEGAL_OPCODE`, and nothing else changes. -/
def Obligations.ReservedOpcodesRefused : Prop :=
  ∀ (s : State) (op : Byte) (d : Bytes),
    (op = 0x00#8 ∨ 6 ≤ op.toNat → exec (decodeCommand ⟨op, d⟩) s =
      .next { s with outPort := s.outPort ++ [.response ⟨0x01#8, [], 0, 0x00#8⟩] }) ∧
    exec (.reservedZero d) s = .next { s with outPort := s.outPort ++ [.response ⟨0x01#8, [], 0, 0x00#8⟩] } ∧
    exec (.reservedHigh op d) s = .next { s with outPort := s.outPort ++ [.response ⟨0x01#8, [], 0, 0x00#8⟩] }

/-- R66: SRESET and SSTAT with an operand are refused with `ILLEGAL_OPERAND`, and nothing else changes. -/
def Obligations.OperandOnSresetSstatRefused : Prop :=
  ∀ (s : State) (d : Bytes), d ≠ [] →
    exec (.sreset d) s = .next { s with outPort := s.outPort ++ [.response ⟨0x02#8, [], 0, 0x00#8⟩] } ∧
    exec (.sstat d) s = .next { s with outPort := s.outPort ++ [.response ⟨0x02#8, [], 0, 0x00#8⟩] }

/-- R64: an operand longer than `MAX_IN` on a command that carries one is refused with
`OPERAND_TOO_LONG`, and nothing else changes; with `MAX_IN = inf` no command is refused so. -/
def Obligations.OverlongOperandRefused : Prop :=
  (∀ (s : State) (m : Nat) (d : Bytes), s.config.maxIn = some m → m < d.length →
    exec (.enc d) s = .next { s with outPort := s.outPort ++ [.response ⟨0x03#8, [], 0, 0x00#8⟩] } ∧
    exec (.dec d) s = .next { s with outPort := s.outPort ++ [.response ⟨0x03#8, [], 0, 0x00#8⟩] } ∧
    exec (.feed d) s = .next { s with outPort := s.outPort ++ [.response ⟨0x03#8, [], 0, 0x00#8⟩] }) ∧
  (∀ (s t : State) (i : Instr) (r : Response), s.config.maxIn = none → exec i s = .next t →
    t.outPort.getLast? = some (.response r) → r.status ≠ 0x03#8)

/-- R68: the checks in their order, opcode, then operand presence, then length; the first that fails
decides the status, and a command that passes every check runs (status `OK`). -/
def Obligations.AdmissionOrder : Prop :=
  ∀ (s : State) (c : Command), Inv s →
    ∃ t r, exec (decodeCommand c) s = .next t ∧ t.outPort.getLast? = some (.response r) ∧
      r.status =
        if c.op = 0x00#8 ∨ 6 ≤ c.op.toNat then 0x01#8
        else if (c.op = 0x04#8 ∨ c.op = 0x05#8) ∧ c.d ≠ [] then 0x02#8
        else if tooLong s.config c.d then 0x03#8
        else 0x00#8

/-- R201: a refused command has no effect other than its response. -/
def Obligations.RefusedCommandChangesNothing : Prop :=
  ∀ (s t : State) (i : Instr) (r : Response),
    exec i s = .next t → t.outPort.getLast? = some (.response r) → r.status ≠ 0x00#8 →
    t = { s with outPort := s.outPort ++ [.response ⟨r.status, [], 0, 0x00#8⟩] }

/-- R49, R50, R60: a command puts its events and then exactly one response on the ports, after all that
stood there; it takes no other command and changes no parameter; only FEED emits events; and only FEED
and SRESET write the StreamingDecoder's registers. -/
def Obligations.EachCommandAnswersOnceAfterItsEvents : Prop :=
  ∀ (s t : State) (i : Instr), exec i s = .next t →
    (∃ (es : List Event) (r : Response), t.outPort = s.outPort ++ es.map .event ++ [.response r] ∧
      ((∀ d, i ≠ .feed d) → es = [])) ∧
    t.cmdPort = s.cmdPort ∧ t.config = s.config ∧
    ((∀ d, i ≠ .feed d) → (∀ d, i ≠ .sreset d) → t.sd = s.sd)

/-! ### ENC -/

/-- R105: ENC completes for every payload it may carry, with the closed form of the frame, and no
persistent register is written. -/
def Obligations.EncProducesClosedForm : Prop :=
  ∀ (s : State) (p : Bytes), tooLong s.config p = false →
    exec (.enc p) s = .next { s with
      enc := none
      outPort := s.outPort ++ [.response ⟨0x00#8, encClosed p, (encClosed p).length, 0x00#8⟩] }

/-- R106: the encoded length and its bounds. -/
def Obligations.EncodedLengthBounds : Prop :=
  ∀ (s : State) (p : Bytes), tooLong s.config p = false →
    ∃ t f, exec (.enc p) s = .next t ∧ t.outPort.getLast? = some (.response ⟨0x00#8, f, f.length, 0x00#8⟩) ∧
      f.length = p.length + 1 + ((segments p).map fun g => g.length / 254).sum ∧
      p.length + 1 ≤ f.length ∧ f.length ≤ p.length + 1 + p.length / 254 ∧
      ((∀ g ∈ segments p, g.length < 254) → f.length = p.length + 1)

/-- R107: `ENC(p).data` contains no 0x00 byte and no `⊥`, for every payload. -/
def Obligations.EncodedFrameHasNoZero : Prop :=
  ∀ (s : State) (p : Bytes), tooLong s.config p = false →
    ∃ t f, exec (.enc p) s = .next t ∧ t.outPort.getLast? = some (.response ⟨0x00#8, f, f.length, 0x00#8⟩) ∧
      ∀ b ∈ f, b ≠ 0x00#8

/-- R71, R73, R108: `ENC(p).data` is a frame of complete blocks, each of at most 254 data bytes, whose
payload is `p`. -/
def Obligations.EncodedFrameIsBlocksOfPayload : Prop :=
  ∀ (s : State) (p : Bytes), tooLong s.config p = false →
    ∃ t bs, exec (.enc p) s = .next t ∧
      t.outPort.getLast? = some (.response ⟨0x00#8, frameBytes bs, (frameBytes bs).length, 0x00#8⟩) ∧
      isFrame bs = true ∧ (∀ b ∈ bs, b.data.length ≤ 254) ∧ framePayload bs = p

/-- R75: a payload whose last data run is saturated gets the double-block tail, a saturated block and
then the empty block; and no frame that ENC produces ends with a saturated block. -/
def Obligations.DoubleBlockTail : Prop :=
  (∀ (s : State) (p : Bytes), tooLong s.config p = false → needsTail p = true →
    ∃ t bs b, exec (.enc p) s = .next t ∧
      t.outPort.getLast? =
        some (.response ⟨0x00#8, frameBytes (bs ++ [b, ⟨0x01#8, []⟩]), (frameBytes (bs ++ [b, ⟨0x01#8, []⟩])).length, 0x00#8⟩) ∧
      isFrame (bs ++ [b, ⟨0x01#8, []⟩]) = true ∧ b.ovh = 0xFF#8) ∧
  (∀ (s : State) (p : Bytes), tooLong s.config p = false →
    ∃ t bs, exec (.enc p) s = .next t ∧
      t.outPort.getLast? = some (.response ⟨0x00#8, frameBytes bs, (frameBytes bs).length, 0x00#8⟩) ∧
      isFrame bs = true ∧ endsSaturated bs = false)

/-- R102: when the block is saturated and the next byte is 0x00, the block is closed as saturated and
the 0x00 stays unconsumed; the next pass closes the new empty block for it. -/
def Obligations.SaturationBeforeZero : Prop :=
  (∀ (p : Bytes) (r : EncRegs), r.code = 0xFF#8 → p[r.i]? = some 0x00#8 →
    (encPass p r).i = r.i ∧ (encPass p r).out = (r.out.set r.slot (some 0xFF#8)) ++ [none] ∧
    (encPass p r).code = 0x01#8 ∧ (encPass p (encPass p r)).i = r.i + 1 ∧
    (encPass p (encPass p r)).out = ((encPass p r).out.set (encPass p r).slot (some 0x01#8)) ++ [none]) ∧
  (∀ (s : State) (d q : Bytes), d.length = 254 → (∀ b ∈ d, b ≠ 0x00#8) →
    tooLong s.config (d ++ 0x00#8 :: q) = false →
    exec (.enc (d ++ 0x00#8 :: q)) s = .next { s with
      enc := none
      outPort := s.outPort ++ [.response ⟨0x00#8, 0xFF#8 :: d ++ 0x01#8 :: encClosed q,
        (0xFF#8 :: d ++ 0x01#8 :: encClosed q).length, 0x00#8⟩] })

/-- R104: the encoder gives the same `E.OUT` as the loop that closes a block as soon as it is saturated. -/
def Obligations.ImmediateCloseEquivalent : Prop :=
  ∀ p : Bytes, (encFinish (encLoop (encPasses p) p encInit)).out = encImmediate p

/-- R100, R209: the encoder's loop consumes the whole payload within `len(p) + floor(len(p)/254)` passes. -/
def Obligations.EncoderPassBound : Prop :=
  ∀ p : Bytes, (encLoop (p.length + p.length / 254) p encInit).i = p.length

/-! ### DEC -/

/-- R73, R132, R133: DEC of whole blocks, whatever their data bytes: the payload with its implied zeros,
the whole length, and `ZDATA` when a data byte is 0x00. -/
def Obligations.DecOfWholeBlocks : Prop :=
  ∀ (s : State) (bs : List Block), bs ≠ [] → bs.all Block.shaped = true →
    tooLong s.config (frameBytes bs) = false →
    exec (.dec (frameBytes bs)) s = .next { s with
      dec := none
      outPort := s.outPort ++ [.response ⟨0x00#8, framePayload bs, (frameBytes bs).length,
        if hasZeroData bs then 0x04#8 else 0x00#8⟩] }

/-- R131, R139: a 0x00 at an overhead position stops the scan: `MALF`, the consumed length excludes that
byte, the implied zero of the block before is in the output, and the bytes after it are not read. -/
def Obligations.DecStopsAtZeroOverhead : Prop :=
  ∀ (s : State) (bs : List Block) (rest : Bytes), bs.all Block.shaped = true →
    tooLong s.config (frameBytes bs ++ 0x00#8 :: rest) = false →
    exec (.dec (frameBytes bs ++ 0x00#8 :: rest)) s = .next { s with
      dec := none
      outPort := s.outPort ++ [.response ⟨0x00#8, framePayload bs ++ zeroAfter bs, (frameBytes bs).length,
        if hasZeroData bs then 0x05#8 else 0x01#8⟩] }

/-- R139: a well-formed frame given with its delimiter comes back with `MALF`, the frame's length, and DEC's
data for the frame with a trailing 0x00 unless the last block is saturated. -/
def Obligations.FrameGivenWithItsDelimiter : Prop :=
  ∀ (s : State) (bs : List Block), isFrame bs = true → tooLong s.config (frameBytes bs ++ [0x00#8]) = false →
    ∃ t r, exec (.dec (frameBytes bs)) s = .next t ∧ t.outPort = s.outPort ++ [.response r] ∧
      exec (.dec (frameBytes bs ++ [0x00#8])) s = .next { s with
        dec := none
        outPort := s.outPort ++ [.response ⟨0x00#8, if endsSaturated bs then r.data else r.data ++ [0x00#8],
          (frameBytes bs).length, 0x01#8⟩] }

/-- R135: `TRUNC` when the input ends inside a block, `EMPTY` when it has length 0; the output is what the
bytes before the end give. -/
def Obligations.DecEndOfInputFlags : Prop :=
  (∀ (s : State) (bs : List Block) (v : Byte) (d : Bytes), bs.all Block.shaped = true → v ≠ 0x00#8 →
    d.length < dataCount v → tooLong s.config (frameBytes bs ++ v :: d) = false →
    exec (.dec (frameBytes bs ++ v :: d)) s = .next { s with
      dec := none
      outPort := s.outPort ++ [.response ⟨0x00#8, framePayload (bs ++ [⟨v, d⟩]), (frameBytes bs ++ v :: d).length,
        if hasZeroData (bs ++ [⟨v, d⟩]) then 0x06#8 else 0x02#8⟩] }) ∧
  (∀ s : State, exec (.dec []) s = .next { s with
    dec := none
    outPort := s.outPort ++ [.response ⟨0x00#8, [], 0, 0x08#8⟩] })

/-- R33, R134, R206: for every frame, well formed or not: bits 7:4 are 0, `count` falls short of the length
exactly when `MALF` is set and is then the index of a 0x00, `EMPTY` is set exactly for the empty frame, and
`MALF` excludes `TRUNC` and `EMPTY`. -/
def Obligations.DecFlagsAndCount : Prop :=
  ∀ (s : State) (f : Bytes), tooLong s.config f = false →
    ∃ t r, exec (.dec f) s = .next t ∧ t.outPort = s.outPort ++ [.response r] ∧ r.status = 0x00#8 ∧
      r.flags &&& 0xF0#8 = 0x00#8 ∧ r.count ≤ f.length ∧
      (r.count < f.length ↔ r.flags.getLsbD 0 = true) ∧
      (r.flags.getLsbD 0 = true → f[r.count]? = some 0x00#8) ∧
      (r.flags.getLsbD 3 = true ↔ f = []) ∧
      (r.flags.getLsbD 0 = true → r.flags.getLsbD 1 = false ∧ r.flags.getLsbD 3 = false)

/-- R136: DEC's output is no longer than its frame. -/
def Obligations.DecOutputBound : Prop :=
  ∀ (s : State) (f : Bytes), tooLong s.config f = false →
    ∃ t r, exec (.dec f) s = .next t ∧ t.outPort = s.outPort ++ [.response r] ∧ r.data.length ≤ f.length

/-- R137: DEC sets no flag exactly for a non-empty concatenation of complete blocks with no 0x00 byte, and
then it consumes the whole frame. -/
def Obligations.NoFlagsIffWellFormed : Prop :=
  ∀ (s : State) (f : Bytes), tooLong s.config f = false →
    ∃ t r, exec (.dec f) s = .next t ∧ t.outPort = s.outPort ++ [.response r] ∧
      (r.flags = 0x00#8 ↔ ∃ bs, isFrame bs = true ∧ f = frameBytes bs) ∧
      (r.flags = 0x00#8 → r.count = f.length)

/-- R138: a well-formed frame that ends with a saturated block and no `[0x01]` tail decodes to its data with
no trailing zero, exactly as the frame with the tail does; and ENC never produces it. -/
def Obligations.SaturatedTailOptional : Prop :=
  ∀ (s : State) (bs : List Block) (b : Block), isFrame (bs ++ [b]) = true → b.ovh = 0xFF#8 →
    tooLong s.config (frameBytes (bs ++ [b]) ++ [0x01#8]) = false →
    exec (.dec (frameBytes (bs ++ [b]))) s = .next { s with
      dec := none
      outPort := s.outPort ++ [.response ⟨0x00#8, framePayload (bs ++ [b]), (frameBytes (bs ++ [b])).length, 0x00#8⟩] } ∧
    exec (.dec (frameBytes (bs ++ [b]) ++ [0x01#8])) s = .next { s with
      dec := none
      outPort := s.outPort ++
        [.response ⟨0x00#8, framePayload (bs ++ [b]), (frameBytes (bs ++ [b])).length + 1, 0x00#8⟩] } ∧
    ∀ (p : Bytes) (t : State) (r : Response), exec (.enc p) s = .next t →
      t.outPort = s.outPort ++ [.response r] → r.data ≠ frameBytes (bs ++ [b])

/-- R80: a frame that does not end with a saturated block is exactly what ENC gives for its payload; one
that does is that with its `[0x01]` tail missing. -/
def Obligations.FrameIsEncodingOfItsPayload : Prop :=
  ∀ (s : State) (bs : List Block), isFrame bs = true → tooLong s.config (framePayload bs) = false →
    ∃ t f, exec (.enc (framePayload bs)) s = .next t ∧
      t.outPort = s.outPort ++ [.response ⟨0x00#8, f, f.length, 0x00#8⟩] ∧
      f = if endsSaturated bs then frameBytes bs ++ [0x01#8] else frameBytes bs

/-- R109, the block half: DEC of `ENC(p).data` gives back `p`, consumes the whole frame and sets no flag,
for every payload, in the same core or another. -/
def Obligations.BlockRoundTrip : Prop :=
  ∀ (s s' : State) (p : Bytes), tooLong s.config p = false →
    ∃ f, exec (.enc p) s = .next { s with
        enc := none
        outPort := s.outPort ++ [.response ⟨0x00#8, f, f.length, 0x00#8⟩] } ∧
      (tooLong s'.config f = false →
        exec (.dec f) s' = .next { s' with
          dec := none
          outPort := s'.outPort ++ [.response ⟨0x00#8, p, f.length, 0x00#8⟩] })

/-! ### FEED: the per-byte step -/

/-- R161, R165: a data byte is appended within the capacity and `SD.CPY` counts down; beyond the capacity
the byte is dropped and `SD.OVF` is set. Every other byte of `SD.ACC` and every other field stands. -/
def Obligations.DataByteAppends : Prop :=
  ∀ (s : State) (b : Byte), s.sd.cpy ≠ 0x00#8 → b ≠ 0x00#8 → tooLong s.config [b] = false →
    ∃ t, exec (.feed [b]) s = .next t ∧
      t = { s with sd := t.sd, feed := none, outPort := s.outPort ++ [.response ⟨0x00#8, [], 0, 0x00#8⟩] } ∧
      t.sd.ovh = s.sd.ovh ∧ t.sd.cpy = s.sd.cpy - 1#8 ∧
      ((∀ cap, s.config.accCap = some cap → s.sd.len < cap) →
        t.sd.len = s.sd.len + 1 ∧ t.sd.ovf = s.sd.ovf ∧ Memory.read t.sd.acc s.sd.len = some b ∧
        ∀ a, a ≠ s.sd.len → Memory.read t.sd.acc a = Memory.read s.sd.acc a) ∧
      (∀ cap, s.config.accCap = some cap → cap ≤ s.sd.len →
        t.sd = { s.sd with cpy := s.sd.cpy - 1#8, ovf := true })

/-- R163: an overhead byte opens a block, after the implied zero of the block before unless that one was
saturated (or there was none). -/
def Obligations.OverheadByteOpensBlock : Prop :=
  ∀ (s : State) (b : Byte), s.sd.cpy = 0x00#8 → b ≠ 0x00#8 → tooLong s.config [b] = false →
    ∃ t, exec (.feed [b]) s = .next t ∧
      t = { s with sd := t.sd, feed := none, outPort := s.outPort ++ [.response ⟨0x00#8, [], 0, 0x00#8⟩] } ∧
      t.sd.ovh = b ∧ t.sd.cpy = b - 1#8 ∧ t.sd.cpy.toNat = b.toNat - 1 ∧
      (s.sd.ovh = 0xFF#8 → t.sd = { s.sd with ovh := b, cpy := b - 1#8 }) ∧
      (s.sd.ovh ≠ 0xFF#8 → (∀ cap, s.config.accCap = some cap → s.sd.len < cap) →
        t.sd.len = s.sd.len + 1 ∧ t.sd.ovf = s.sd.ovf ∧ Memory.read t.sd.acc s.sd.len = some 0x00#8 ∧
        ∀ a, a ≠ s.sd.len → Memory.read t.sd.acc a = Memory.read s.sd.acc a) ∧
      (s.sd.ovh ≠ 0xFF#8 → ∀ cap, s.config.accCap = some cap → cap ≤ s.sd.len →
        t.sd = { s.sd with ovh := b, cpy := b - 1#8, ovf := true })

/-- R162: the three things a delimiter does. The event's payload is the snapshot from before the reset;
nothing is appended to it or removed from it. -/
def Obligations.DelimiterEndsFrame : Prop :=
  ∀ s : State, s.sd.cpy = 0x00#8 → tooLong s.config [0x00#8] = false →
    (idle s.sd = true →
      exec (.feed [0x00#8]) s = .next { s with
        feed := none, outPort := s.outPort ++ [.response ⟨0x00#8, [], 0, 0x00#8⟩] }) ∧
    (∀ p, idle s.sd = false → s.sd.ovf = true → Memory.slice s.sd.acc 0 s.sd.len = some p →
      exec (.feed [0x00#8]) s = .next { s with
        sd := ⟨0xFF#8, 0x00#8, [], 0, false⟩, feed := none
        outPort := s.outPort ++ [.event (.ferr 0x02#8 p), .response ⟨0x00#8, [], 1, 0x00#8⟩] }) ∧
    (∀ p, idle s.sd = false → s.sd.ovf = false → Memory.slice s.sd.acc 0 s.sd.len = some p →
      exec (.feed [0x00#8]) s = .next { s with
        sd := ⟨0xFF#8, 0x00#8, [], 0, false⟩, feed := none
        outPort := s.outPort ++ [.event (.frame p), .response ⟨0x00#8, [], 1, 0x00#8⟩] })

/-- R164: a delimiter inside a block emits a frame error with cause `DIB`, and `OVF` too if the frame
overflowed, then resets the decoder. -/
def Obligations.DelimiterInsideBlock : Prop :=
  ∀ (s : State) (p : Bytes), s.sd.cpy ≠ 0x00#8 → tooLong s.config [0x00#8] = false →
    Memory.slice s.sd.acc 0 s.sd.len = some p →
    exec (.feed [0x00#8]) s = .next { s with
      sd := ⟨0xFF#8, 0x00#8, [], 0, false⟩, feed := none
      outPort := s.outPort ++
        [.event (.ferr (if s.sd.ovf then 0x03#8 else 0x01#8) p), .response ⟨0x00#8, [], 1, 0x00#8⟩] }

/-- R167: appending an implied zero and then removing the last appended byte leaves the payload as it was,
provided the temporary append has room. -/
def Obligations.AppendThenRemoveIsNothing : Prop :=
  ∀ (c : Config) (r : SdRegs) (p : Bytes), (∀ cap, c.accCap = some cap → r.len < cap) →
    Memory.slice r.acc 0 r.len = some p →
    (sdAppend c r 0x00#8).len = r.len + 1 ∧
    Memory.slice (sdAppend c r 0x00#8).acc 0 ((sdAppend c r 0x00#8).len - 1) = some p ∧
    Memory.slice (sdAppend c r 0x00#8).acc 0 (sdAppend c r 0x00#8).len = some (p ++ [0x00#8])

/-- R175: after any event the decoder's state equals its reset state, at the very byte that raised it. -/
def Obligations.ResetAfterEveryEvent : Prop :=
  (∀ (c : Config) (r r' : SdRegs) (b : Byte) (e : Event), sdStep c r b = some (r', some e) →
    r' = ⟨0xFF#8, 0x00#8, [], 0, false⟩) ∧
  (∀ (s t : State) (b : Byte), exec (.feed [b]) s = .next t → t.events ≠ s.events →
    t.sd = ⟨0xFF#8, 0x00#8, [], 0, false⟩)

/-- R24, R25: a byte adds at most one to `SD.LEN`, which only a reset lowers; `SD.OVF` is set only when the
accumulator is full and stays set until a reset; with `ACC_CAP = inf` it is never set. -/
def Obligations.CursorAndOverflowUntilReset : Prop :=
  ∀ (c : Config) (r r' : SdRegs) (b : Byte) (e : Option Event), sdStep c r b = some (r', e) →
    r'.len ≤ r.len + 1 ∧
    (r'.len < r.len → r' = SdRegs.reset) ∧
    (r.ovf = true → r'.ovf = false → r' = SdRegs.reset) ∧
    (r.ovf = false → r'.ovf = true → r'.len = r.len ∧ ∃ cap, c.accCap = some cap ∧ cap ≤ r.len) ∧
    (c.accCap = none → r.ovf = false → r'.ovf = false)

/-- R27: `IDLE` is its predicate, and it holds exactly in the reset state; a 0x00 keeps an idle decoder as
it is, silently; the first non-zero byte ends `IDLE`, and after that only a reset with its event brings it
back. -/
def Obligations.IdleExactlyAtReset : Prop :=
  (∀ r : SdRegs, idle r = true ↔ r.cpy = 0x00#8 ∧ r.ovh = 0xFF#8 ∧ r.len = 0 ∧ r.ovf = false) ∧
  (∀ (c : Config) (r : SdRegs), SdInv c r → (idle r = true ↔ r = SdRegs.reset)) ∧
  (∀ (c : Config) (r : SdRegs), idle r = true → sdStep c r 0x00#8 = some (r, none)) ∧
  (∀ (c : Config) (r r' : SdRegs) (b : Byte) (e : Option Event), sdStep c r b = some (r', e) → b ≠ 0x00#8 →
    idle r' = false ∧ e = none) ∧
  (∀ (c : Config) (r r' : SdRegs) (e : Option Event), sdStep c r 0x00#8 = some (r', e) → idle r = false →
    r' = SdRegs.reset ∧ e.isSome = true)

/-! ### FEED: whole chunks -/

/-- R171: `FEED []` runs, changes no register and emits no event. -/
def Obligations.EmptyChunkIsNoOp : Prop :=
  ∀ s : State, exec (.feed []) s =
    .next { s with feed := none, outPort := s.outPort ++ [.response ⟨0x00#8, [], 0, 0x00#8⟩] }

/-- R50, R170: FEED completes on every good state and every chunk it may carry; it is the run of the
per-byte step over the chunk, its events on the port in byte order and before the response, which counts
them. Of what the good state keeps, the canonical form of `SD.ACC` is the model's own
(notes/assumptions/7.md); that FEED never waits on the consumer is the spec's decision D23 (8.md). -/
def Obligations.FeedRunsEveryByte : Prop :=
  ∀ (s : State) (d : Bytes), SdInv s.config s.sd → tooLong s.config d = false →
    ∃ r es, sdRun s.config s.sd d = some (r, es) ∧ SdInv s.config r ∧
      exec (.feed d) s = .next { s with
        sd := r, feed := none
        outPort := s.outPort ++ es.map .event ++ [.response ⟨0x00#8, [], es.length, 0x00#8⟩] }

/-- R24, R47: a FEED that emits no event keeps every byte the accumulator held and every other unit's
registers; it only moves the cursor on. -/
def Obligations.FeedWithoutEventKeepsStoredBytes : Prop :=
  ∀ (s t : State) (d : Bytes), exec (.feed d) s = .next t → t.events = s.events →
    s.sd.len ≤ t.sd.len ∧ (∀ a, a < s.sd.len → Memory.read t.sd.acc a = Memory.read s.sd.acc a) ∧
    t.enc = s.enc ∧ t.dec = s.dec ∧ t.cmdPort = s.cmdPort ∧ t.config = s.config

/-- R172: feeding a byte sequence in any split leaves the same decoder state as one FEED of it and emits the
same events in the same order; the counts sum to the same total. -/
def Obligations.ChunkBoundaryInvariance : Prop :=
  ∀ (s : State) (cs : List Bytes), SdInv s.config s.sd → tooLong s.config cs.flatten = false →
    ∃ t u rs r, runCommands (cs.map .feed) s = .next t ∧ exec (.feed cs.flatten) s = .next u ∧
      t.sd = u.sd ∧ t.events = u.events ∧
      t.responses = s.responses ++ rs ∧ rs.length = cs.length ∧ u.responses = s.responses ++ [r] ∧
      (rs.map Response.count).sum = r.count

/-- R173: from an idle decoder, `ENC(p).data` and the delimiter, split in any way, emit exactly one event,
`FRAME(p)`, or `FERR(0x02, p[0..ACC_CAP))` when `p` is longer than the capacity, and leave the decoder
idle. -/
def Obligations.StreamRoundTrip : Prop :=
  ∀ (s : State) (p : Bytes) (cs : List Bytes), s.sd = SdRegs.reset →
    cs.flatten = encClosed p ++ [0x00#8] → (∀ c ∈ cs, tooLong s.config c = false) →
    ∃ t, runCommands (cs.map .feed) s = .next t ∧ t.sd = SdRegs.reset ∧
      ((∀ cap, s.config.accCap = some cap → p.length ≤ cap) → t.events = s.events ++ [.frame p]) ∧
      (∀ cap, s.config.accCap = some cap → cap < p.length →
        t.events = s.events ++ [.ferr 0x02#8 (p.take cap)])

/-- R174: from an idle decoder, a well-formed frame and its delimiter emit exactly one event, `FRAME` of the
payload that DEC gives, non-canonical frames too. -/
def Obligations.StreamAgreesWithDec : Prop :=
  ∀ (s s' : State) (bs : List Block), isFrame bs = true → s.sd = SdRegs.reset →
    tooLong s.config (frameBytes bs ++ [0x00#8]) = false → tooLong s'.config (frameBytes bs) = false →
    (∀ cap, s.config.accCap = some cap → (framePayload bs).length ≤ cap) →
    ∃ t' r, exec (.dec (frameBytes bs)) s' = .next t' ∧ t'.outPort = s'.outPort ++ [.response r] ∧
      exec (.feed (frameBytes bs ++ [0x00#8])) s = .next { s with
        feed := none
        outPort := s.outPort ++ [.event (.frame r.data), .response ⟨0x00#8, [], 1, 0x00#8⟩] }

/-- R176: from idle, a stream of encoded frames, each with its delimiter and any number of extra 0x00 bytes
after it (and before the first), split in any way, emits the payloads in that order, one FRAME each. -/
def Obligations.StreamOfFrames : Prop :=
  ∀ (s : State) (k : Nat) (ps : List (Bytes × Nat)) (cs : List Bytes), s.sd = SdRegs.reset →
    cs.flatten =
      List.replicate k 0x00#8 ++ ps.flatMap (fun x => encClosed x.1 ++ [0x00#8] ++ List.replicate x.2 0x00#8) →
    (∀ c ∈ cs, tooLong s.config c = false) →
    (∀ x ∈ ps, ∀ cap, s.config.accCap = some cap → x.1.length ≤ cap) →
    ∃ t, runCommands (cs.map .feed) s = .next t ∧ t.sd = SdRegs.reset ∧
      t.events = s.events ++ ps.map fun x => .frame x.1

/-- R244: with the delimiter between two encoded frames left out, one event comes: the two payloads joined
by a zero. -/
def Obligations.MissingDelimiterJoinsPayloads : Prop :=
  ∀ (s : State) (p q : Bytes), s.sd = SdRegs.reset →
    tooLong s.config (encClosed p ++ encClosed q ++ [0x00#8]) = false →
    (∀ cap, s.config.accCap = some cap → (p ++ [0x00#8] ++ q).length ≤ cap) →
    exec (.feed (encClosed p ++ encClosed q ++ [0x00#8])) s = .next { s with
      feed := none
      outPort := s.outPort ++ [.event (.frame (p ++ [0x00#8] ++ q)), .response ⟨0x00#8, [], 1, 0x00#8⟩] }

/-! ### SRESET and SSTAT -/

/-- R181: SRESET completes in every state: it reports the discarded length and the stream flags from before,
resets the decoder and emits no event. -/
def Obligations.SresetReportsAndResets : Prop :=
  ∀ s : State, exec (.sreset []) s = .next { s with
    sd := ⟨0xFF#8, 0x00#8, [], 0, false⟩
    outPort := s.outPort ++ [.response ⟨0x00#8, [], s.sd.len,
      (if idle s.sd then 0x00#8 else 0x02#8) + (if s.sd.ovf then 0x01#8 else 0x00#8)⟩] }

/-- R34, R185: SSTAT completes in every state: it reports `SD.OVH`, `SD.CPY`, `SD.LEN` and the stream flags,
and changes nothing. -/
def Obligations.SstatReports : Prop :=
  ∀ s : State, exec (.sstat []) s = .next { s with
    outPort := s.outPort ++ [.response ⟨0x00#8, [s.sd.ovh, s.sd.cpy], s.sd.len,
      (if idle s.sd then 0x00#8 else 0x02#8) + (if s.sd.ovf then 0x01#8 else 0x00#8)⟩] }

/-! ### Whole-machine rules -/

/-- R46: ENC, DEC and SSTAT change no StreamingDecoder register, and issuing one twice gives the same
response; SRESET is idempotent; feeding the same chunk twice does not, in general, give the same events. -/
def Obligations.SideEffectsOfCommands : Prop :=
  (∀ (s t u : State) (i : Instr), ((∃ d, i = .enc d) ∨ (∃ d, i = .dec d) ∨ i = .sstat []) →
    exec i s = .next t → exec i t = .next u →
    t.sd = s.sd ∧ ∃ r, t.outPort = s.outPort ++ [.response r] ∧ u.outPort = t.outPort ++ [.response r]) ∧
  (∀ s t u : State, exec (.sreset []) s = .next t → exec (.sreset []) t = .next u →
    u.sd = t.sd ∧ u.outPort = t.outPort ++ [.response ⟨0x00#8, [], 0, 0x00#8⟩]) ∧
  (∃ (s t u : State) (d : Bytes) (es es' : List Event), Inv s ∧ exec (.feed d) s = .next t ∧
    exec (.feed d) t = .next u ∧ t.events = s.events ++ es ∧ u.events = t.events ++ es' ∧ es ≠ es')

/-- R33, R34, R63, R203, R32: no command produces a reserved code or a reserved bit: its status is 0x00 to
0x03, and an error's other fields are 0 or empty; DEC's flags use bits 3:0, SRESET's and SSTAT's
bits 1:0, and every other command's none; an FERR's cause uses bits 1:0 and has one of them set. -/
def Obligations.NoReservedCodeIsProduced : Prop :=
  ∀ (s t : State) (i : Instr), exec i s = .next t →
    ∃ (es : List Event) (r : Response), t.outPort = s.outPort ++ es.map .event ++ [.response r] ∧
      r.status.toNat ≤ 3 ∧
      (r.status ≠ 0x00#8 → r.data = [] ∧ r.count = 0 ∧ r.flags = 0x00#8) ∧
      r.flags &&& 0xF0#8 = 0x00#8 ∧
      ((∀ d, i ≠ .dec d) → r.flags &&& 0xFC#8 = 0x00#8) ∧
      ((∀ d, i ≠ .dec d) → (∀ d, i ≠ .sreset d) → (∀ d, i ≠ .sstat d) → r.flags = 0x00#8) ∧
      ∀ cause p, Event.ferr cause p ∈ es → cause &&& 0xFC#8 = 0x00#8 ∧ cause ≠ 0x00#8

/-- R213: ENC and DEC give the same response to the same operand in any two cores with the same
parameters, or in one core at two times. -/
def Obligations.EncDecIndependentOfState : Prop :=
  ∀ (s s' t : State) (i : Instr), ((∃ d, i = .enc d) ∨ (∃ d, i = .dec d)) → s.config = s'.config →
    exec i s = .next t →
    ∃ t' r, exec i s' = .next t' ∧ t.outPort = s.outPort ++ [.response r] ∧ t'.outPort = s'.outPort ++ [.response r]

/-- R230: a command takes a decoder that is not idle to the reset state only if it is SRESET or a FEED that
emits an event. -/
def Obligations.ResetOnlyBySresetOrEvent : Prop :=
  ∀ (s t : State) (i : Instr), exec i s = .next t → idle s.sd = false → idle t.sd = true →
    i = .sreset [] ∨ ((∃ d, i = .feed d) ∧ t.events ≠ s.events)

/-- R37: the contents of `SD.ACC` reach nothing but `SD.ACC` itself and the payload bytes of an event: two
states that differ in them alone give the same response and the same other registers, parameters and
waiting commands; their events agree pairwise in kind, in cause and in the length of their payload; and
outside FEED the output is the same. -/
def Obligations.AccumulatorContentsHidden : Prop :=
  ∀ (s t t' : State) (m : Memory) (i : Instr),
    exec i s = .next t → exec i { s with sd := { s.sd with acc := m } } = .next t' →
    t.outPort.getLast? = t'.outPort.getLast? ∧ t.outPort.length = t'.outPort.length ∧
    t.outPort.map hidePayload = t'.outPort.map hidePayload ∧
    t' = { t with sd := { t.sd with acc := t'.sd.acc }, outPort := t'.outPort } ∧
    ((∀ d, i ≠ .feed d) → t'.outPort = t.outPort)

/-- R26, R30: the invariants hold after power-on, whatever the parameters, and at the model's reset; the
canonical form of `SD.ACC` among them is the model's own (notes/assumptions/7.md). -/
def Obligations.InvariantAtPowerOn : Prop :=
  (∀ c : Config, Inv (State.powerOn c)) ∧ Inv State.reset

/-- R26, R30, R209: from every good state a step answers a next state, and that state is good: the decoder's
five invariants, the canonical form of `SD.ACC` and the transient registers at `⊥`. That a step without a
command answers the same state, and the canonical form, are the model's (notes/assumptions/4.md, 7.md); that
FEED never waits on the consumer is the spec's decision D23 (notes/assumptions/8.md). -/
def Obligations.StepKeepsInvariant : Prop :=
  ∀ s : State, Inv s → ∃ t, step s = .next t ∧ Inv t

/-- R26: the five invariants hold between any two bytes: every byte keeps them, and with them the canonical
form of `SD.ACC`, which is the model's own (notes/assumptions/7.md). -/
def Obligations.ByteKeepsDecoderInvariants : Prop :=
  ∀ (c : Config) (r : SdRegs) (b : Byte), SdInv c r → ∃ r' e, sdStep c r b = some (r', e) ∧ SdInv c r'

/-- R209: the core never hangs and never refuses to step: from a good state every run of steps goes
through. That a step without a command waits is the model's reading (notes/assumptions/4.md). That no step
waits on the consumer rests on the unbounded event port (R205), which is the spec's own decision D23: of a
core that stalls on a full port this says nothing about progress (notes/assumptions/8.md). -/
def Obligations.CoreNeverStops : Prop :=
  ∀ (n : Nat) (s : State), Inv s → SafeFor n s

/-! ### The wire format and the assembler -/

/-- R76: a decoder finds a frame's blocks from the overhead bytes. -/
def Obligations.BlocksFoundFromOverheadBytes : Prop :=
  (∀ bs : List Block, bs.all Block.shaped = true → parseFrame (frameBytes bs) = some bs) ∧
  (∀ (f : Bytes) (bs : List Block), parseFrame f = some bs → frameBytes bs = f ∧ bs.all Block.shaped = true)

/-- R83: the pseudo-instructions' expansions, with `enc` the function of R100. -/
def Obligations.PseudoInstructionsExpand : Prop :=
  (∀ (s : State) (p : Bytes), tooLong s.config p = false →
    ∃ t f, exec (.enc p) s = .next t ∧ t.outPort.getLast? = some (.response ⟨0x00#8, f, f.length, 0x00#8⟩) ∧
      (asmFeedf p).map decodeCommand = some (.feed (f ++ [0x00#8]))) ∧
  (∀ b : Byte, decodeCommand (asmFeedb b) = .feed [b]) ∧
  decodeCommand asmNopc = .feed [] ∧
  (∀ (op : Byte) (d : Bytes), decode (op :: d) = .ok (decodeCommand (asmRaw op d)))

/-! ### The order of commands -/

/-- R8, R49, R60: commands presented one after another, after those that wait, run in the order in which they
were presented, one whole command a step: as many steps as there are commands end in the state that
executing them one after another ends in, with no command left; and one response comes per command, in the
same order. The port as a list of commands is the model's (notes/assumptions/5.md). -/
def Obligations.CommandsRunInIssueOrder : Prop :=
  ∀ (s : State) (cs : List Command), Inv s →
    ∃ (t : State) (rs : List Response),
      Host.Core.run Sys2Proof.core (s.cmdPort ++ cs).length (presentCommands cs s) = .next t ∧ t.cmdPort = [] ∧
      runCommands ((s.cmdPort ++ cs).map decodeCommand) { s with cmdPort := [] } = .next t ∧
      t.responses = s.responses ++ rs ∧ rs.length = (s.cmdPort ++ cs).length ∧
      ∀ k, k ≤ (s.cmdPort ++ cs).length →
        ∃ u, runCommands (((s.cmdPort ++ cs).take k).map decodeCommand) { s with cmdPort := [] } = .next u ∧
          u.responses = s.responses ++ rs.take k
end

