-- ==== Sys2Proof/Laws/Memory.lean ====
section
/-! SUPPORT. The laws of `SD.ACC`'s storage: what a write does to every read, that a write keeps the
canonical form, and what a slice reads. -/

namespace Sys2Proof.Machine

@[simp] theorem Memory.read_nil (a : Nat) : Memory.read [] a = none := rfl

@[simp] theorem Memory.wf_nil : Memory.wf [] = true := rfl

/-- A read after a write to the same position gives the byte written. -/
@[simp] theorem Memory.read_write_same (m : Memory) (a : Nat) (v : Byte) :
    Memory.read (Memory.write m a v) a = some v := by
  induction m with
  | nil => simp [Memory.write, Memory.read]
  | cons c m ih =>
    by_cases h₁ : a < c.1
    · simp [Memory.write, Memory.read, h₁]
    · by_cases h₂ : c.1 = a
      · simp [Memory.write, Memory.read, h₂]
      · simp [Memory.write, Memory.read, h₁, h₂, ih]

/-- A write leaves every other position alone. -/
theorem Memory.read_write_other (m : Memory) {a b : Nat} (v : Byte) (h : b ≠ a) :
    Memory.read (Memory.write m a v) b = Memory.read m b := by
  have h' : ¬ a = b := fun e => h e.symm
  induction m with
  | nil => simp [Memory.write, Memory.read, h']
  | cons c m ih =>
    by_cases h₁ : a < c.1
    · simp [Memory.write, Memory.read, h₁, h']
    · by_cases h₂ : c.1 = a
      · subst h₂
        simp [Memory.write, Memory.read, h']
      · simp [Memory.write, Memory.read, h₁, h₂, ih]

/-- In canonical form every index after the first is larger. -/
theorem Memory.wf_cons {c : Host.Cell} {m : Memory} :
    Memory.wf (c :: m) = true ↔ (∀ d ∈ m.head?, c.1 < d.1) ∧ Memory.wf m = true := by
  cases m with
  | nil => simp [Memory.wf]
  | cons d m => simp [Memory.wf]

/-- A write keeps the canonical form. -/
theorem Memory.write_wf {m : Memory} (h : Memory.wf m = true) (a : Nat) (v : Byte) :
    Memory.wf (Memory.write m a v) = true := by
  induction m with
  | nil => rfl
  | cons c m ih =>
    obtain ⟨hlt, hm⟩ := Memory.wf_cons.1 h
    by_cases h₁ : a < c.1
    · simp [Memory.write, h₁, Memory.wf, h]
    · by_cases h₂ : c.1 = a
      · subst h₂
        simp only [Memory.write, Nat.lt_irrefl, if_false, if_true]
        exact (Memory.wf_cons (c := (c.1, v))).2 ⟨hlt, hm⟩
      · simp only [Memory.write, h₁, h₂, if_false]
        refine Memory.wf_cons.2 ⟨fun d hd => ?_, ih hm⟩
        cases m with
        | nil =>
          simp [Memory.write] at hd
          subst hd
          exact Nat.lt_of_le_of_ne (Nat.le_of_not_lt h₁) h₂
        | cons e m =>
          have he := hlt e (by simp)
          by_cases h₃ : a < e.1
          · simp [Memory.write, h₃] at hd
            subst hd
            exact Nat.lt_of_le_of_ne (Nat.le_of_not_lt h₁) h₂
          · by_cases h₄ : e.1 = a
            · simp [Memory.write, h₄] at hd
              subst hd
              exact Nat.lt_of_le_of_ne (Nat.le_of_not_lt h₁) h₂
            · simp [Memory.write, h₃, h₄] at hd
              subst hd
              exact he

@[simp] theorem Memory.slice_zero (m : Memory) (a : Nat) : Memory.slice m a 0 = some [] := rfl

/-- A slice depends on the positions it reads only. -/
theorem Memory.slice_congr {m m' : Memory} :
    ∀ {n a : Nat}, (∀ b, a ≤ b → b < a + n → Memory.read m b = Memory.read m' b) →
      Memory.slice m a n = Memory.slice m' a n := by
  intro n
  induction n with
  | zero => intros; rfl
  | succ n ih =>
    intro a h
    rw [Memory.slice, Memory.slice, h a (Nat.le_refl a) (by omega),
      ih (fun b hb hb' => h b (by omega) (by omega))]

/-- A slice one byte longer. -/
theorem Memory.slice_succ (m : Memory) :
    ∀ (n a : Nat), Memory.slice m a (n + 1) =
      (Memory.slice m a n).bind fun p => (Memory.read m (a + n)).map fun b => p ++ [b] := by
  intro n
  induction n with
  | zero =>
    intro a
    simp only [Memory.slice, Nat.add_zero]
    cases Memory.read m a <;> rfl
  | succ n ih =>
    intro a
    rw [Memory.slice, ih (a + 1), Memory.slice]
    have e : a + 1 + n = a + (n + 1) := by omega
    rw [e]
    cases Memory.read m a with
    | none => rfl
    | some b =>
      cases Memory.slice m (a + 1) n with
      | none => rfl
      | some p => cases Memory.read m (a + (n + 1)) <;> rfl

/-- A slice of positions that all hold a value holds a value, of the slice's length. -/
theorem Memory.slice_isSome {m : Memory} :
    ∀ {n a : Nat}, (∀ b, a ≤ b → b < a + n → (Memory.read m b).isSome = true) →
      ∃ p, Memory.slice m a n = some p ∧ p.length = n := by
  intro n
  induction n with
  | zero => intro a _; exact ⟨[], rfl, rfl⟩
  | succ n ih =>
    intro a h
    obtain ⟨b, hb⟩ := Option.isSome_iff_exists.1 (h a (Nat.le_refl a) (by omega))
    obtain ⟨p, hp, hl⟩ := ih (a := a + 1) (fun b hb hb' => h b (by omega) (by omega))
    exact ⟨b :: p, by simp [Memory.slice, hb, hp], by simp [hl]⟩

/-- Writing at the end of a slice and reading one byte more appends the byte. -/
theorem Memory.slice_write_end {m : Memory} {n : Nat} {p : Bytes} (v : Byte)
    (h : Memory.slice m 0 n = some p) :
    Memory.slice (Memory.write m n v) 0 (n + 1) = some (p ++ [v]) := by
  have e : Memory.slice (Memory.write m n v) 0 n = some p := by
    rw [← h]
    exact Memory.slice_congr fun b _ hb => Memory.read_write_other m v (by omega)
  simp [Memory.slice_succ, e]

end Sys2Proof.Machine
end

