-- ==== Sys2Proof/Laws/State.lean ====
section
/-! SUPPORT. One lemma per field of the state per named update, and the ports' two views after each. -/

namespace Sys2Proof.Machine

/-! ### `respond` -/

@[simp] theorem respond_config (r : Response) (s : State) : (respond r s).config = s.config := rfl
@[simp] theorem respond_sd (r : Response) (s : State) : (respond r s).sd = s.sd := rfl
@[simp] theorem respond_enc (r : Response) (s : State) : (respond r s).enc = s.enc := rfl
@[simp] theorem respond_dec (r : Response) (s : State) : (respond r s).dec = s.dec := rfl
@[simp] theorem respond_feed (r : Response) (s : State) : (respond r s).feed = s.feed := rfl
@[simp] theorem respond_cmdPort (r : Response) (s : State) : (respond r s).cmdPort = s.cmdPort := rfl
@[simp] theorem respond_outPort (r : Response) (s : State) : (respond r s).outPort = s.outPort ++ [.response r] := rfl

/-! ### `emit` -/

@[simp] theorem emit_config (e : Event) (s : State) : (emit e s).config = s.config := rfl
@[simp] theorem emit_sd (e : Event) (s : State) : (emit e s).sd = s.sd := rfl
@[simp] theorem emit_enc (e : Event) (s : State) : (emit e s).enc = s.enc := rfl
@[simp] theorem emit_dec (e : Event) (s : State) : (emit e s).dec = s.dec := rfl
@[simp] theorem emit_feed (e : Event) (s : State) : (emit e s).feed = s.feed := rfl
@[simp] theorem emit_cmdPort (e : Event) (s : State) : (emit e s).cmdPort = s.cmdPort := rfl
@[simp] theorem emit_outPort (e : Event) (s : State) : (emit e s).outPort = s.outPort ++ [.event e] := rfl

/-! ### `raiseError` -/

@[simp] theorem raiseError_config (code : Byte) (s : State) : (raiseError code s).config = s.config := rfl
@[simp] theorem raiseError_sd (code : Byte) (s : State) : (raiseError code s).sd = s.sd := rfl
@[simp] theorem raiseError_enc (code : Byte) (s : State) : (raiseError code s).enc = s.enc := rfl
@[simp] theorem raiseError_dec (code : Byte) (s : State) : (raiseError code s).dec = s.dec := rfl
@[simp] theorem raiseError_feed (code : Byte) (s : State) : (raiseError code s).feed = s.feed := rfl
@[simp] theorem raiseError_cmdPort (code : Byte) (s : State) : (raiseError code s).cmdPort = s.cmdPort := rfl
@[simp] theorem raiseError_outPort (code : Byte) (s : State) : (raiseError code s).outPort = s.outPort ++ [.response (errorResponse code)] := rfl

/-! ### `takeOutput` -/

/-- Taking the oldest item off the output ports changes those ports only. -/
theorem takeOutput_eq_some {s t : State} {o : Output} (h : takeOutput s = some (o, t)) :
    s.outPort = o :: t.outPort ∧ t = { s with outPort := t.outPort } := by
  unfold takeOutput at h
  split at h
  · cases h
  · next e => cases h; exact ⟨e, rfl⟩

/-! ### `presentCommand` -/

@[simp] theorem presentCommand_config (c : Command) (s : State) : (presentCommand c s).config = s.config := rfl
@[simp] theorem presentCommand_sd (c : Command) (s : State) : (presentCommand c s).sd = s.sd := rfl
@[simp] theorem presentCommand_enc (c : Command) (s : State) : (presentCommand c s).enc = s.enc := rfl
@[simp] theorem presentCommand_dec (c : Command) (s : State) : (presentCommand c s).dec = s.dec := rfl
@[simp] theorem presentCommand_feed (c : Command) (s : State) : (presentCommand c s).feed = s.feed := rfl
@[simp] theorem presentCommand_cmdPort (c : Command) (s : State) : (presentCommand c s).cmdPort = s.cmdPort ++ [c] := rfl
@[simp] theorem presentCommand_outPort (c : Command) (s : State) : (presentCommand c s).outPort = s.outPort := rfl

/-- Commands presented one after another stand on the port in that order, after those that stood there;
nothing else changes. -/
theorem presentCommands_eq (cs : List Command) (s : State) :
    presentCommands cs s = { s with cmdPort := s.cmdPort ++ cs } := by
  induction cs generalizing s with
  | nil => simp [presentCommands]
  | cons c cs ih =>
    have h := ih (presentCommand c s)
    simp only [presentCommands, List.foldl_cons] at h ⊢
    rw [h]
    simp [presentCommand]

/-! ### `placeNext` -/

@[simp] theorem placeNext_config (c : Command) (s : State) : (placeNext c s).config = s.config := rfl
@[simp] theorem placeNext_sd (c : Command) (s : State) : (placeNext c s).sd = s.sd := rfl
@[simp] theorem placeNext_enc (c : Command) (s : State) : (placeNext c s).enc = s.enc := rfl
@[simp] theorem placeNext_dec (c : Command) (s : State) : (placeNext c s).dec = s.dec := rfl
@[simp] theorem placeNext_feed (c : Command) (s : State) : (placeNext c s).feed = s.feed := rfl
@[simp] theorem placeNext_cmdPort (c : Command) (s : State) : (placeNext c s).cmdPort = c :: s.cmdPort := rfl
@[simp] theorem placeNext_outPort (c : Command) (s : State) : (placeNext c s).outPort = s.outPort := rfl

/-- On an empty port the placement is the issuer's action. -/
theorem placeNext_of_empty {c : Command} {s : State} (h : s.cmdPort = []) : placeNext c s = presentCommand c s := by
  simp [placeNext, presentCommand, h]

/-! ### `encBegin` -/

@[simp] theorem encBegin_config (s : State) : (encBegin s).config = s.config := rfl
@[simp] theorem encBegin_sd (s : State) : (encBegin s).sd = s.sd := rfl
@[simp] theorem encBegin_enc (s : State) : (encBegin s).enc = some encInit := rfl
@[simp] theorem encBegin_dec (s : State) : (encBegin s).dec = s.dec := rfl
@[simp] theorem encBegin_feed (s : State) : (encBegin s).feed = s.feed := rfl
@[simp] theorem encBegin_cmdPort (s : State) : (encBegin s).cmdPort = s.cmdPort := rfl
@[simp] theorem encBegin_outPort (s : State) : (encBegin s).outPort = s.outPort := rfl

/-! ### `decBegin` -/

@[simp] theorem decBegin_config (f : Bytes) (s : State) : (decBegin f s).config = s.config := rfl
@[simp] theorem decBegin_sd (f : Bytes) (s : State) : (decBegin f s).sd = s.sd := rfl
@[simp] theorem decBegin_enc (f : Bytes) (s : State) : (decBegin f s).enc = s.enc := rfl
@[simp] theorem decBegin_dec (f : Bytes) (s : State) : (decBegin f s).dec = some (decInit f) := rfl
@[simp] theorem decBegin_feed (f : Bytes) (s : State) : (decBegin f s).feed = s.feed := rfl
@[simp] theorem decBegin_cmdPort (f : Bytes) (s : State) : (decBegin f s).cmdPort = s.cmdPort := rfl
@[simp] theorem decBegin_outPort (f : Bytes) (s : State) : (decBegin f s).outPort = s.outPort := rfl

/-! ### `feedBegin` -/

@[simp] theorem feedBegin_config (s : State) : (feedBegin s).config = s.config := rfl
@[simp] theorem feedBegin_sd (s : State) : (feedBegin s).sd = s.sd := rfl
@[simp] theorem feedBegin_enc (s : State) : (feedBegin s).enc = s.enc := rfl
@[simp] theorem feedBegin_dec (s : State) : (feedBegin s).dec = s.dec := rfl
@[simp] theorem feedBegin_feed (s : State) : (feedBegin s).feed = some { i := 0, nev := 0 } := rfl
@[simp] theorem feedBegin_cmdPort (s : State) : (feedBegin s).cmdPort = s.cmdPort := rfl
@[simp] theorem feedBegin_outPort (s : State) : (feedBegin s).outPort = s.outPort := rfl

/-! ### `powerCycle` -/

@[simp] theorem powerCycle_config (s : State) : (powerCycle s).config = s.config := rfl
@[simp] theorem powerCycle_sd (s : State) : (powerCycle s).sd = SdRegs.reset := rfl
@[simp] theorem powerCycle_enc (s : State) : (powerCycle s).enc = none := rfl
@[simp] theorem powerCycle_dec (s : State) : (powerCycle s).dec = none := rfl
@[simp] theorem powerCycle_feed (s : State) : (powerCycle s).feed = none := rfl
@[simp] theorem powerCycle_cmdPort (s : State) : (powerCycle s).cmdPort = [] := rfl
@[simp] theorem powerCycle_outPort (s : State) : (powerCycle s).outPort = [] := rfl

/-! ### `emitOption` -/

@[simp] theorem emitOption_config (e : Option Event) (s : State) : (emitOption e s).config = s.config := by
  cases e <;> rfl
@[simp] theorem emitOption_sd (e : Option Event) (s : State) : (emitOption e s).sd = s.sd := by
  cases e <;> rfl
@[simp] theorem emitOption_enc (e : Option Event) (s : State) : (emitOption e s).enc = s.enc := by
  cases e <;> rfl
@[simp] theorem emitOption_dec (e : Option Event) (s : State) : (emitOption e s).dec = s.dec := by
  cases e <;> rfl
@[simp] theorem emitOption_feed (e : Option Event) (s : State) : (emitOption e s).feed = s.feed := by
  cases e <;> rfl
@[simp] theorem emitOption_cmdPort (e : Option Event) (s : State) : (emitOption e s).cmdPort = s.cmdPort := by
  cases e <;> rfl
@[simp] theorem emitOption_outPort (e : Option Event) (s : State) :
    (emitOption e s).outPort = s.outPort ++ e.toList.map .event := by
  cases e <;> simp [emitOption]

/-! ### Power-on -/

@[simp] theorem powerOn_config (c : Config) : (State.powerOn c).config = c := rfl
@[simp] theorem powerOn_sd (c : Config) : (State.powerOn c).sd = SdRegs.reset := rfl
@[simp] theorem powerOn_enc (c : Config) : (State.powerOn c).enc = none := rfl
@[simp] theorem powerOn_dec (c : Config) : (State.powerOn c).dec = none := rfl
@[simp] theorem powerOn_feed (c : Config) : (State.powerOn c).feed = none := rfl
@[simp] theorem powerOn_cmdPort (c : Config) : (State.powerOn c).cmdPort = [] := rfl
@[simp] theorem powerOn_outPort (c : Config) : (State.powerOn c).outPort = [] := rfl

/-! ### The ports' views -/

@[simp] theorem events_respond (r : Response) (s : State) : (respond r s).events = s.events := by
  simp [State.events]

@[simp] theorem responses_respond (r : Response) (s : State) : (respond r s).responses = s.responses ++ [r] := by
  simp [State.responses]

@[simp] theorem events_emit (e : Event) (s : State) : (emit e s).events = s.events ++ [e] := by
  simp [State.events]

@[simp] theorem responses_emit (e : Event) (s : State) : (emit e s).responses = s.responses := by
  simp [State.responses]

/-- What a command puts on the ports, as the event port sees it: its events, in order. -/
theorem events_of_outPort {s t : State} {es : List Event} {r : Response}
    (h : t.outPort = s.outPort ++ es.map .event ++ [.response r]) : t.events = s.events ++ es := by
  simp [State.events, h, List.filterMap_append, List.filterMap_map]

/-- What a command puts on the ports, as the response port sees it: its one response. -/
theorem responses_of_outPort {s t : State} {es : List Event} {r : Response}
    (h : t.outPort = s.outPort ++ es.map .event ++ [.response r]) : t.responses = s.responses ++ [r] := by
  simp [State.responses, h, List.filterMap_append, List.filterMap_map]

end Sys2Proof.Machine
end

