-- ==== Sys2Proof/Laws/Ops.lean ====
section
/-! SUPPORT. For each shared operation, once, everything it can do. -/

namespace Sys2Proof.Machine

/-! ### `andThen` -/

@[simp] theorem andThen_next (s : State) (k : State → Result) : andThen (.next s) k = k s := rfl

@[simp] theorem andThen_fault (f : Fault) (k : State → Result) : andThen (.fault f) k = .fault f := rfl

@[simp] theorem andThen_refused (r : Refusal) (k : State → Result) : andThen (.refused r) k = .refused r := rfl

/-- Two sub-steps answer a next state exactly when both do. -/
theorem andThen_eq_next {o : Result} {k : State → Result} {t : State} :
    andThen o k = .next t ↔ ∃ s, o = .next s ∧ k s = .next t := by
  cases o <;> simp

/-! ### Buffers -/

@[simp] theorem bufAppend_length {α : Type} (b : List α) (v : α) : (bufAppend b v).length = b.length + 1 := by
  simp [bufAppend]

@[simp] theorem bufWrite_length (b : Buffer) (i : Nat) (v : Byte) : (bufWrite b i v).length = b.length := by
  simp [bufWrite]

/-- A buffer of bytes alone reads as those bytes. -/
@[simp] theorem bufBytes_map_some (p : Bytes) : bufBytes (p.map some) = some p := by
  induction p with
  | nil => rfl
  | cons b p ih => simp [bufBytes, ih]

/-- The bytes of a buffer, when none is `⊥`. -/
theorem bufBytes_eq_some {b : Buffer} {p : Bytes} : bufBytes b = some p ↔ b = p.map some := by
  constructor
  · intro h
    induction b generalizing p with
    | nil => simp [bufBytes] at h; simp [h]
    | cons x b ih =>
      cases x with
      | none => simp [bufBytes] at h
      | some x =>
        simp only [bufBytes, Option.map_eq_some_iff] at h
        obtain ⟨q, hq, rfl⟩ := h
        simp [ih hq]
  · rintro rfl
    simp

/-! ### Admission -/

@[simp] theorem tooLong_nil (c : Config) : tooLong c [] = false := by
  unfold tooLong
  cases c.maxIn <;> simp

/-- An operand no longer than an admissible one is admissible. -/
theorem tooLong_mono {c : Config} {d d' : Bytes} (hl : d'.length ≤ d.length) (h : tooLong c d = false) :
    tooLong c d' = false := by
  unfold tooLong at *
  cases hm : c.maxIn with
  | none => rfl
  | some m => simp [hm] at h ⊢; omega

@[simp] theorem admission_cmdAny (c : Config) (d : Bytes) :
    admission .cmdAny c d = some statusIllegalOpcode := rfl

theorem admission_cmdD (c : Config) (d : Bytes) :
    admission .cmdD c d = if tooLong c d then some statusOperandTooLong else none := rfl

theorem admission_cmdN (c : Config) (d : Bytes) :
    admission .cmdN c d = if d = [] then none else some statusIllegalOperand := by
  by_cases h : d = []
  · subst h
    simp [admission]
  · simp [admission, h]

/-- A command that passes its checks runs. -/
theorem admitted_of_pass {f : CmdFormat} {d : Bytes} {s : State} {k : State → Result}
    (h : admission f s.config d = none) : admitted f d s k = k s := by
  simp [admitted, h]

/-- A command that fails a check is answered by that check's status, with no other effect. -/
theorem admitted_of_fail {f : CmdFormat} {d : Bytes} {s : State} {k : State → Result} {code : Byte}
    (h : admission f s.config d = some code) : admitted f d s k = .next (raiseError code s) := by
  simp [admitted, h]

/-- The two things admission can do. -/
theorem admitted_cases (f : CmdFormat) (d : Bytes) (s : State) (k : State → Result) :
    (∃ code, admission f s.config d = some code ∧ admitted f d s k = .next (raiseError code s)) ∨
      (admission f s.config d = none ∧ admitted f d s k = k s) := by
  cases h : admission f s.config d with
  | none => exact .inr ⟨rfl, admitted_of_pass h⟩
  | some code => exact .inl ⟨code, rfl, admitted_of_fail h⟩

/-! ### The StreamingDecoder's shared operations -/

@[simp] theorem sdReset_eq (r : SdRegs) : sdReset r = SdRegs.reset := rfl

@[simp] theorem sdAppend_ovh (c : Config) (r : SdRegs) (v : Byte) : (sdAppend c r v).ovh = r.ovh := by
  unfold sdAppend; split <;> rfl

@[simp] theorem sdAppend_cpy (c : Config) (r : SdRegs) (v : Byte) : (sdAppend c r v).cpy = r.cpy := by
  unfold sdAppend; split <;> rfl

/-- R165: everything an append can do. -/
theorem sdAppend_cases (c : Config) (r : SdRegs) (v : Byte) :
    (hasRoom c r.len = true ∧ sdAppend c r v = { r with acc := Memory.write r.acc r.len v, len := r.len + 1 }) ∨
      (hasRoom c r.len = false ∧ sdAppend c r v = { r with ovf := true }) := by
  unfold sdAppend
  cases hasRoom c r.len <;> simp

/-- A frame error answers exactly when the snapshot holds a value. -/
theorem frameError_eq_some {cause : Byte} {r r' : SdRegs} {e : Option Event} :
    frameError cause r = some (r', e) ↔
      ∃ p, sdSnapshot r = some p ∧ r' = SdRegs.reset ∧ e = some (.ferr cause p) := by
  unfold frameError
  cases sdSnapshot r with
  | none => simp
  | some p =>
    simp only [sdReset_eq, Option.some.injEq, Prod.mk.injEq, exists_eq_left', eq_comm]

/-- A complete frame answers exactly when the snapshot holds a value. -/
theorem frameComplete_eq_some {r r' : SdRegs} {e : Option Event} :
    frameComplete r = some (r', e) ↔
      ∃ p, sdSnapshot r = some p ∧ r' = SdRegs.reset ∧ e = some (.frame p) := by
  unfold frameComplete
  cases sdSnapshot r with
  | none => simp
  | some p =>
    simp only [sdReset_eq, Option.some.injEq, Prod.mk.injEq, exists_eq_left', eq_comm]

end Sys2Proof.Machine
end

