-- ==== Sys2Proof/Laws/Wire.lean ====
section
/-! SUPPORT. The laws of the wire format: how a payload's closed form starts with its first block (three
equations, and the induction that goes with them), and how any byte sequence starts with whole blocks. -/

namespace Sys2Proof.Machine

/-! ### Segments -/

theorem segments_ne_nil (p : Bytes) : segments p ≠ [] := by
  induction p with
  | nil => simp [segments]
  | cons b p ih =>
    unfold segments
    cases h : segments p with
    | nil => exact absurd h ih
    | cons s ss => by_cases hb : b = 0x00#8 <;> simp [hb]

/-- The first zero of a payload ends its first segment. -/
theorem segments_zero (p : Bytes) : segments (0x00#8 :: p) = [] :: segments p := by
  cases h : segments p with
  | nil => exact absurd h (segments_ne_nil p)
  | cons s ss => simp [segments, h]

/-- A non-zero byte belongs to the first segment. -/
theorem segments_nonzero {b : Byte} (hb : b ≠ 0x00#8) (p : Bytes) :
    ∃ s ss, segments p = s :: ss ∧ segments (b :: p) = (b :: s) :: ss := by
  cases h : segments p with
  | nil => exact absurd h (segments_ne_nil p)
  | cons s ss => exact ⟨s, ss, rfl, by simp [segments, h, hb]⟩

/-- A run of non-zero bytes belongs to the first segment. -/
theorem segments_run {d : Bytes} (hd : ∀ b ∈ d, b ≠ 0x00#8) (p : Bytes) :
    ∃ s ss, segments p = s :: ss ∧ segments (d ++ p) = (d ++ s) :: ss := by
  induction d with
  | nil =>
    cases h : segments p with
    | nil => exact absurd h (segments_ne_nil p)
    | cons s ss => exact ⟨s, ss, rfl, by simp [h]⟩
  | cons b d ih =>
    obtain ⟨s, ss, h, h'⟩ := ih fun x hx => hd x (List.mem_cons_of_mem _ hx)
    obtain ⟨s', ss', h₁, h₂⟩ := segments_nonzero (hd b (by simp)) (d ++ p)
    rw [h'] at h₁
    cases h₁
    exact ⟨s, ss, h, h₂⟩

/-! ### The closed form, block by block -/

/-- A payload of one short run of non-zero bytes is one block. -/
theorem encBlocks_short {d : Bytes} (hd : ∀ b ∈ d, b ≠ 0x00#8) (hl : d.length < 254) :
    encBlocks d = [{ ovh := BitVec.ofNat 8 (d.length + 1), data := d }] := by
  obtain ⟨s, ss, h, h'⟩ := segments_run hd []
  simp [segments] at h
  obtain ⟨rfl, rfl⟩ := h
  simp only [List.append_nil] at h'
  have hz : d.length / maxBlockData = 0 := Nat.div_eq_of_lt hl
  simp [encBlocks, h', hz, segmentBlocks]

/-- A zero after a short run of non-zero bytes ends its block. -/
theorem encBlocks_zero {d : Bytes} (hd : ∀ b ∈ d, b ≠ 0x00#8) (hl : d.length < 254) (p : Bytes) :
    encBlocks (d ++ 0x00#8 :: p) = { ovh := BitVec.ofNat 8 (d.length + 1), data := d } :: encBlocks p := by
  obtain ⟨s, ss, h, h'⟩ := segments_run hd (0x00#8 :: p)
  rw [segments_zero] at h
  cases h
  simp only [List.append_nil] at h'
  have hz : d.length / maxBlockData = 0 := Nat.div_eq_of_lt hl
  simp [encBlocks, h', hz, segmentBlocks]

/-- A run of 254 non-zero bytes is a saturated block, whatever follows. -/
theorem encBlocks_saturated {d : Bytes} (hd : ∀ b ∈ d, b ≠ 0x00#8) (hl : d.length = 254) (p : Bytes) :
    encBlocks (d ++ p) = { ovh := 0xFF#8, data := d } :: encBlocks p := by
  obtain ⟨s, ss, h, h'⟩ := segments_run hd p
  have hz : (d ++ s).length / maxBlockData = s.length / maxBlockData + 1 := by
    simp only [List.length_append, hl, maxBlockData]
    omega
  have ht : (d ++ s).take maxBlockData = d := by
    simp only [maxBlockData, ← hl, List.take_left']
  have hdr : (d ++ s).drop maxBlockData = s := by
    simp only [maxBlockData, ← hl, List.drop_left']
  simp only [encBlocks, h, h', List.flatMap_cons, hz, segmentBlocks, ht, hdr, List.cons_append]

/-- The induction that goes with the three equations: a payload is a short run of non-zero bytes, or one
followed by a zero and a payload, or a run of 254 non-zero bytes followed by a payload. -/
theorem payload_induction {P : Bytes → Prop}
    (short : ∀ d : Bytes, (∀ b ∈ d, b ≠ 0x00#8) → d.length < 254 → P d)
    (zero : ∀ (d p : Bytes), (∀ b ∈ d, b ≠ 0x00#8) → d.length < 254 → P p → P (d ++ 0x00#8 :: p))
    (saturated : ∀ (d p : Bytes), (∀ b ∈ d, b ≠ 0x00#8) → d.length = 254 → P p → P (d ++ p)) :
    ∀ p, P p := by
  have key : ∀ n, ∀ (d p : Bytes), (∀ b ∈ d, b ≠ 0x00#8) → d.length ≤ 254 → p.length ≤ n →
      (∀ q : Bytes, q.length < (d ++ p).length → P q) → P (d ++ p) := by
    intro n
    induction n with
    | zero =>
      intro d p hd hl hp rec
      have hp0 : p = [] := List.length_eq_zero_iff.1 (by omega)
      subst hp0
      by_cases h : d.length = 254
      · exact saturated d [] hd h (rec [] (by simp [h]))
      · simpa using short d hd (by omega)
    | succ n ih =>
      intro d p hd hl hp rec
      by_cases h : d.length = 254
      · exact saturated d p hd h (rec p (by simp [h]))
      · cases p with
        | nil => simpa using short d hd (by omega)
        | cons b p =>
          by_cases hb : b = 0x00#8
          · subst hb
            exact zero d p hd (by omega) (rec p (by simp; omega))
          · have := ih (d ++ [b]) p
              (by
                intro x hx
                rcases List.mem_append.1 hx with hx | hx
                · exact hd x hx
                · simp at hx; subst hx; exact hb)
              (by simp; omega) (by simp at hp; omega) (by simpa using rec)
            simpa using this
  intro p
  induction hn : p.length using Nat.strongRecOn generalizing p with
  | _ n ih =>
    subst hn
    simpa using key p.length [] p (by simp) (by simp) (Nat.le_refl _)
      (fun q hq => ih q.length (by simpa using hq) q rfl)

/-! ### Frames -/

@[simp] theorem frameBytes_nil : frameBytes [] = [] := rfl

@[simp] theorem frameBytes_cons (b : Block) (bs : List Block) :
    frameBytes (b :: bs) = b.ovh :: b.data ++ frameBytes bs := by
  simp [frameBytes, Block.bytes]

@[simp] theorem frameBytes_append (bs bs' : List Block) :
    frameBytes (bs ++ bs') = frameBytes bs ++ frameBytes bs' := by
  simp [frameBytes]

theorem Block.shaped_iff {b : Block} :
    b.shaped = true ↔ b.ovh ≠ 0x00#8 ∧ b.data.length = dataCount b.ovh := by
  simp [Block.shaped]

/-- A complete block is a block of the announced shape without a zero data byte. -/
theorem Block.complete_iff {b : Block} :
    b.complete = true ↔ b.shaped = true ∧ ∀ x ∈ b.data, x ≠ 0x00#8 := by
  simp [Block.complete, Block.shaped]

/-- Appending a block to a non-empty frame puts the implied zero of the last block before its data. -/
theorem framePayload_append (bs : List Block) (b : Block) :
    framePayload (bs ++ [b]) = framePayload bs ++ zeroAfter bs ++ b.data := by
  induction bs with
  | nil => simp [framePayload, zeroAfter]
  | cons x bs ih =>
    cases bs with
    | nil => simp [framePayload, zeroAfter]
    | cons y bs =>
      simp only [List.cons_append, framePayload] at ih ⊢
      rw [ih]
      simp [zeroAfter, List.getLast?_cons_cons]

/-- Any byte sequence is whole blocks of the announced shape and then its end, a 0x00 at an overhead
position, or a block cut short. -/
theorem bytes_cases (f : Bytes) :
    ∃ bs : List Block, bs.all Block.shaped = true ∧
      (f = frameBytes bs ∨ (∃ rest, f = frameBytes bs ++ 0x00#8 :: rest) ∨
        ∃ v d, v ≠ 0x00#8 ∧ d.length < dataCount v ∧ f = frameBytes bs ++ v :: d) := by
  induction hn : f.length using Nat.strongRecOn generalizing f with
  | _ n ih =>
    subst hn
    cases f with
    | nil => exact ⟨[], rfl, .inl rfl⟩
    | cons v f =>
      by_cases hv : v = 0x00#8
      · subst hv
        exact ⟨[], rfl, .inr (.inl ⟨f, rfl⟩)⟩
      · by_cases hl : f.length < dataCount v
        · exact ⟨[], rfl, .inr (.inr ⟨v, f, hv, hl, rfl⟩)⟩
        · obtain ⟨bs, hbs, h⟩ := ih (f.drop (dataCount v)).length (by simp only [List.length_drop, List.length_cons]; omega) _ rfl
          have hshape : ({ ovh := v, data := f.take (dataCount v) } : Block).shaped = true := by
            rw [Block.shaped_iff]
            exact ⟨hv, by simp; omega⟩
          have hf : v :: f = v :: (f.take (dataCount v) ++ f.drop (dataCount v)) := by simp
          refine ⟨{ ovh := v, data := f.take (dataCount v) } :: bs, by simp [hshape, hbs], ?_⟩
          rcases h with h | ⟨rest, h⟩ | ⟨w, d, hw, hd, h⟩
          · exact .inl (by rw [hf, h]; simp)
          · exact .inr (.inl ⟨rest, by rw [hf, h]; simp⟩)
          · exact .inr (.inr ⟨w, d, hw, hd, by rw [hf, h]; simp⟩)

end Sys2Proof.Machine
end

