-- ==== Sys2Proof/Laws/BlockDecoder.lean ====
section
/-! SUPPORT. What DEC's loop does, once: over a run of data bytes, over a block of the announced shape, and
over a list of such blocks (spec 41_block_decoder.md R132, R133). -/

namespace Sys2Proof.Machine

/-- The flags after data bytes: `ZDATA` when one of them is 0x00 (R132). -/
def dataFlags (d : Bytes) (flags : Byte) : Byte :=
  if d.any (fun x => decide (x = 0x00#8)) then flags ||| flagZdata else flags

theorem setFlag_zdata_twice (flags : Byte) : (flags ||| flagZdata) ||| flagZdata = flags ||| flagZdata := by
  rw [BitVec.or_assoc, BitVec.or_self]

/-- R132: the loop over a run of data bytes within the block. -/
theorem decLoop_data (d rest : Bytes) (r : DecRegs) (h : d.length ≤ r.copy.toNat) :
    decLoop (d ++ rest) r =
      decLoop rest { r with
        out := r.out ++ d
        copy := r.copy - BitVec.ofNat 8 d.length
        flags := dataFlags d r.flags
        i := r.i + d.length } := by
  induction d generalizing r with
  | nil => simp [dataFlags]
  | cons b d ih =>
    simp only [List.length_cons] at h
    have hc : r.copy ≠ 0x00#8 := by
      intro hc
      rw [hc] at h
      simp at h
    have hn : (r.copy - 1#8).toNat = r.copy.toNat - 1 := by
      have := r.copy.isLt
      simp only [BitVec.toNat_sub, BitVec.toNat_ofNat]
      omega
    simp only [List.cons_append, decLoop, hc, ne_eq, not_false_eq_true, if_true]
    rw [ih _ (by simp only [decData]; omega)]
    congr 1
    have e₁ : r.copy - 1#8 - BitVec.ofNat 8 d.length = r.copy - BitVec.ofNat 8 (d.length + 1) := by
      rw [Nat.add_comm, BitVec.ofNat_add, sub_sub]
    have e₂ : dataFlags d (if b = 0x00#8 then setFlag r.flags flagZdata else r.flags) = dataFlags (b :: d) r.flags := by
      by_cases hb : b = 0x00#8
      · by_cases hd : d.any (fun x => decide (x = 0x00#8)) = true
        · simp only [dataFlags, hb, hd, if_true, setFlag, setFlag_zdata_twice, List.any_cons, decide_true, Bool.true_or]
        · simp only [dataFlags, hb, hd, if_true, setFlag, List.any_cons, decide_true, Bool.true_or]
          rfl
      · simp [dataFlags, hb]
    simp [decData, bufAppend, e₁, e₂, Nat.add_assoc, Nat.add_comm 1]

/-- R133: the loop over one block of the announced shape. -/
theorem decLoop_block (b : Block) (rest : Bytes) (r : DecRegs) (hb : b.shaped = true) (hr : r.copy = 0x00#8) :
    decLoop (b.ovh :: b.data ++ rest) r =
      decLoop rest {
        out := (if r.ovh ≠ sentinel then r.out ++ [0x00#8] else r.out) ++ b.data
        copy := 0x00#8
        ovh := b.ovh
        flags := dataFlags b.data r.flags
        i := r.i + (b.data.length + 1) } := by
  obtain ⟨hv, hl⟩ := Block.shaped_iff.1 hb
  have hpos : 0 < b.ovh.toNat := Nat.pos_of_ne_zero fun h => hv (BitVec.eq_of_toNat_eq (by simpa using h))
  have hn : (b.ovh - 1#8).toNat = b.ovh.toNat - 1 := by
    have := b.ovh.isLt
    simp only [BitVec.toNat_sub, BitVec.toNat_ofNat]
    omega
  simp only [List.cons_append, decLoop, hr, hv, ne_eq, not_true_eq_false, if_false]
  rw [decLoop_data _ _ _ (by simp only [decBlockOpened, decOverhead, hn, hl, dataCount]; omega)]
  congr 1
  have e : b.ovh - 1#8 - BitVec.ofNat 8 b.data.length = 0x00#8 := by
    apply BitVec.eq_of_toNat_eq
    have := b.ovh.isLt
    simp only [BitVec.toNat_sub, BitVec.toNat_ofNat, hl, dataCount]
    omega
  simp only [decBlockOpened, decOverhead, e, bufAppend]
  simp [Nat.add_assoc, Nat.add_comm 1]

/-- The implied zero that stands before the next block after `bs`, where `ovh` is the overhead byte before
them. -/
def zeroBefore (ovh : Byte) : Bytes := if ovh ≠ sentinel then [0x00#8] else []

/-- The overhead byte of the last block, or the one before them. -/
def lastOvh (ovh : Byte) (bs : List Block) : Byte := (bs.getLast?.map Block.ovh).getD ovh

theorem zeroBefore_lastOvh (bs : List Block) : zeroBefore (lastOvh sentinel bs) = zeroAfter bs := by
  unfold zeroAfter lastOvh
  cases bs.getLast? with
  | none => simp [zeroBefore]
  | some b => simp [zeroBefore, impliedZero, Block.saturated]

/-- R133: the loop over blocks of the announced shape. -/
theorem decLoop_blocks (bs : List Block) (rest : Bytes) (r : DecRegs) (hbs : bs.all Block.shaped = true)
    (hr : r.copy = 0x00#8) :
    decLoop (frameBytes bs ++ rest) r =
      decLoop rest {
        out := r.out ++ (if bs = [] then [] else zeroBefore r.ovh ++ framePayload bs)
        copy := 0x00#8
        ovh := lastOvh r.ovh bs
        flags := if hasZeroData bs then r.flags ||| flagZdata else r.flags
        i := r.i + (frameBytes bs).length } := by
  induction bs generalizing r with
  | nil =>
    obtain ⟨out, copy, ovh, flags, i⟩ := r
    cases hr
    simp [lastOvh, hasZeroData]
  | cons b bs ih =>
    simp only [List.all_cons, Bool.and_eq_true] at hbs
    have e : frameBytes (b :: bs) ++ rest = b.ovh :: b.data ++ (frameBytes bs ++ rest) := by simp
    rw [e, decLoop_block b _ r hbs.1 hr, ih _ hbs.2 rfl]
    congr 1
    have e₁ : (if r.ovh ≠ sentinel then r.out ++ [0x00#8] else r.out) = r.out ++ zeroBefore r.ovh := by
      by_cases h : r.ovh = sentinel <;> simp [zeroBefore, h]
    have e₂ : b.data ++ (if bs = [] then [] else zeroBefore b.ovh ++ framePayload bs) = framePayload (b :: bs) := by
      cases bs with
      | nil => simp [framePayload]
      | cons c bs =>
        by_cases h : b.ovh = sentinel <;> simp [framePayload, zeroBefore, impliedZero, Block.saturated, h]
    have e₃ : lastOvh b.ovh bs = lastOvh r.ovh (b :: bs) := by
      cases bs with
      | nil => simp [lastOvh]
      | cons c bs => simp [lastOvh, List.getLast?_cons]
    have e₄ : (if hasZeroData bs then dataFlags b.data r.flags ||| flagZdata else dataFlags b.data r.flags) =
        if hasZeroData (b :: bs) then r.flags ||| flagZdata else r.flags := by
      by_cases h₁ : b.data.any (fun x => decide (x = 0x00#8)) = true
      · by_cases h₂ : hasZeroData bs = true
        · have h₃ : hasZeroData (b :: bs) = true := by
            simp only [hasZeroData, List.any_cons, h₁, Bool.true_or]
          simp only [h₂, h₃, if_true, dataFlags, h₁, setFlag_zdata_twice]
        · have h₃ : hasZeroData (b :: bs) = true := by
            simp only [hasZeroData, List.any_cons, h₁, Bool.true_or]
          simp only [h₂, h₃, if_true, dataFlags, h₁]
          rfl
      · have h₃ : hasZeroData (b :: bs) = hasZeroData bs := by
          simp only [hasZeroData, List.any_cons, h₁, Bool.false_or]
        simp only [dataFlags, h₁, h₃]
        rfl
    rw [e₁, ← e₃, e₄, ← e₂]
    simp
    omega

end Sys2Proof.Machine
end

