-- ==== Sys2Proof/Laws/Encoder.lean ====
section
/-! SUPPORT. What ENC's loop does, once: its working registers always hold the closed blocks, an open slot
and the open block's data, and it ends on the closed form of spec 40_encoder.md R105. -/

namespace Sys2Proof.Machine

/-- The working registers with the bytes `done` of the closed blocks and the data `cur` of the open one. -/
def encAt (done cur : Bytes) (i : Nat) : EncRegs :=
  { out := done.map some ++ none :: cur.map some, slot := done.length, code := BitVec.ofNat 8 (cur.length + 1), i := i }

theorem encInit_eq : encInit = encAt [] [] 0 := rfl

/-- The open block is saturated exactly when it has 254 data bytes. -/
theorem encAt_saturated {done cur : Bytes} {i : Nat} (h : cur.length ≤ 254) :
    (encAt done cur i).code = 0xFF#8 ↔ cur.length = 254 := by
  simp only [encAt]
  rw [← BitVec.toNat_inj]
  simp only [BitVec.toNat_ofNat]
  omega

/-- The slot of the open block, once written. -/
theorem encAt_write (done cur : Bytes) (i : Nat) (v : Byte) :
    bufWrite (encAt done cur i).out (encAt done cur i).slot v = (done ++ v :: cur).map some := by
  simp [encAt, bufWrite]

/-- R101: closing the open block. -/
theorem closeBlock_encAt (done cur : Bytes) (i : Nat) :
    closeBlock (encAt done cur i) = encAt (done ++ BitVec.ofNat 8 (cur.length + 1) :: cur) [] i := by
  unfold closeBlock
  rw [encAt_write]
  simp [encAt, bufAppend]

/-- Appending a data byte to the open block. -/
theorem encAppend_encAt (done cur : Bytes) (i : Nat) (b : Byte) :
    encAppend (encAt done cur i) b = encAt done (cur ++ [b]) i := by
  simp [encAppend, encAt, bufAppend, BitVec.ofNat_add]

/-- The cursor is a register of its own. -/
theorem encAt_cursor (done cur : Bytes) (i j : Nat) :
    ({ encAt done cur i with i := j } : EncRegs) = encAt done cur j := rfl

/-- The final write. -/
theorem writeSlot_encAt (done cur : Bytes) (i : Nat) :
    (writeSlot (encAt done cur i)).out = (done ++ BitVec.ofNat 8 (cur.length + 1) :: cur).map some :=
  encAt_write done cur i _

/-- Closing the open block only when it is saturated. -/
theorem closeSaturated_encAt {done cur : Bytes} {i : Nat} (h : cur.length ≤ 254) :
    closeSaturated (encAt done cur i) =
      if cur.length = 254 then encAt (done ++ 0xFF#8 :: cur) [] i else encAt done cur i := by
  unfold closeSaturated
  by_cases hc : cur.length = 254
  · rw [if_pos ((encAt_saturated h).2 hc), if_pos hc, closeBlock_encAt, hc]
  · rw [if_neg (fun e => hc ((encAt_saturated h).1 e)), if_neg hc]

/-- R103: the end of the scan. -/
theorem encFinish_encAt {done cur : Bytes} {i : Nat} (hd : ∀ b ∈ cur, b ≠ 0x00#8) (hl : cur.length ≤ 254) :
    (encFinish (encAt done cur i)).out = (done ++ encClosed cur).map some := by
  rw [encFinish, closeSaturated_encAt hl]
  by_cases h : cur.length = 254
  · have e : encBlocks cur = { ovh := 0xFF#8, data := cur } :: encBlocks [] := by
      simpa using encBlocks_saturated hd h []
    have e' : encBlocks [] = [{ ovh := BitVec.ofNat 8 1, data := [] }] := encBlocks_short (by simp) (by simp)
    rw [if_pos h, writeSlot_encAt]
    simp [encClosed, e, e']
  · rw [if_neg h, writeSlot_encAt]
    simp [encClosed, encBlocks_short hd (show cur.length < 254 by omega)]

/-- The loop from an open block, with passes enough: it consumes the whole payload, and the end of the scan
then gives the closed form of what was open and what was left. -/
theorem encLoop_encAt (k : Nat) :
    ∀ (done cur q p : Bytes) (i : Nat), (∀ b ∈ cur, b ≠ 0x00#8) → cur.length ≤ 254 → p.drop i = q → i ≤ p.length →
      q.length + (cur.length + q.length) / 254 ≤ k →
      (encLoop k p (encAt done cur i)).i = p.length ∧
        (encFinish (encLoop k p (encAt done cur i))).out = (done ++ encClosed (cur ++ q)).map some := by
  induction k with
  | zero =>
    intro done cur q p i hd hl hq hi hk
    have hq0 : q = [] := List.length_eq_zero_iff.1 (by omega)
    subst hq0
    have : i = p.length := by
      have := congrArg List.length hq
      simp at this
      omega
    exact ⟨this, by simpa [encLoop] using encFinish_encAt hd hl⟩
  | succ k ih =>
    intro done cur q p i hd hl hq hi hk
    have hlen : q.length = p.length - i := by rw [← hq]; simp
    cases q with
    | nil =>
      have hip : i = p.length := by simp at hlen; omega
      have : ¬ (encAt done cur i).i < p.length := by simp [encAt, hip]
      simp only [encLoop, this, if_false]
      exact ⟨hip, by simpa using encFinish_encAt hd hl⟩
    | cons b q =>
      have hilt : i < p.length := by simp at hlen; omega
      have hget : p[(encAt done cur i).i]? = some b := by
        have := congrArg List.head? hq
        simpa [encAt, List.head?_drop] using this
      have hlt : (encAt done cur i).i < p.length := hilt
      have hdrop : p.drop (i + 1) = q := by
        rw [← List.drop_drop, hq]; rfl
      simp only [List.length_cons] at hk
      simp only [encLoop, hlt, if_true, encPass, hget]
      by_cases h : cur.length = 254
      · have hc := (encAt_saturated (done := done) (i := i) hl).2 h
        simp only [hc, if_true, closeBlock_encAt]
        obtain ⟨h₁, h₂⟩ := ih (done ++ BitVec.ofNat 8 (cur.length + 1) :: cur) [] (b :: q) p i (by simp) (by simp) hq hi
          (by simp only [List.length_cons, List.length_nil]; omega)
        refine ⟨h₁, ?_⟩
        rw [h₂]
        simp [encClosed, encBlocks_saturated hd h (b :: q), h]
      · have hc : (encAt done cur i).code ≠ 0xFF#8 := fun hc => h ((encAt_saturated hl).1 hc)
        simp only [hc, if_false]
        by_cases hb : b = 0x00#8
        · subst hb
          simp only [ne_eq, not_true_eq_false, if_false, closeBlock_encAt]
          rw [encAt_cursor, show (encAt done cur i).i + 1 = i + 1 from rfl]
          obtain ⟨h₁, h₂⟩ := ih (done ++ BitVec.ofNat 8 (cur.length + 1) :: cur) [] q p (i + 1) (by simp) (by simp)
            hdrop hilt (by simp only [List.length_nil]; omega)
          refine ⟨h₁, ?_⟩
          rw [h₂]
          simp [encClosed, encBlocks_zero hd (show cur.length < 254 by omega) q]
        · simp only [ne_eq, hb, not_false_eq_true, if_true]
          rw [encAppend_encAt, encAt_cursor]
          obtain ⟨h₁, h₂⟩ := ih done (cur ++ [b]) q p ((encAt done cur i).i + 1)
            (by
              intro x hx
              rcases List.mem_append.1 hx with hx | hx
              · exact hd x hx
              · simp at hx; subst hx; exact hb)
            (by simp; omega) hdrop hilt (by simp only [List.length_append, List.length_cons, List.length_nil]; omega)
          refine ⟨h₁, ?_⟩
          rw [h₂]
          simp

end Sys2Proof.Machine
end

