-- ==== Sys2Proof/Laws/Exec.lean ====
section
/-! SUPPORT. For each command, once, everything it can do; then the inversion of `exec`: `exec i s`
answers `t` exactly when `Answers s i t`. Later proofs cite these and unfold no meaning. -/

namespace Sys2Proof.Machine

/-! ### ENC -/

/-- R100: an admitted ENC answers with its frame and leaves `E.*` at `⊥`. -/
theorem execEnc_of_data {d f : Bytes} {s : State} (ha : tooLong s.config d = false) (hf : encData d = some f) :
    execEnc d s =
      .next (respond (encResponse f) { s with enc := none }) := by
  unfold encData at hf
  simp [execEnc, admitted, admission, ha, encScan, encBegin, encRespond, hf]

/-- An admitted ENC faults exactly when a slot would still hold `⊥`. -/
theorem execEnc_of_bottom {d : Bytes} {s : State} (ha : tooLong s.config d = false) (hf : encData d = none) :
    execEnc d s = .fault .encSlotBottom := by
  unfold encData at hf
  simp [execEnc, admitted, admission, ha, encScan, encBegin, encRespond, hf]

/-! ### DEC -/

/-- R130: an admitted DEC answers with its response and leaves `B.*` at `⊥`. -/
theorem execDec_of_admitted {d : Bytes} {s : State} (ha : tooLong s.config d = false) :
    execDec d s = .next (respond (decOf d) { s with dec := none }) := by
  simp [execDec, admitted, admission, ha, decScan, decBegin, decRespond, decOf]

/-! ### FEED -/

/-- A run over one chunk and then another is a run over both (R172). -/
theorem sdRun_append (c : Config) (a b : Bytes) (r : SdRegs) :
    sdRun c r (a ++ b) =
      (sdRun c r a).bind fun x => (sdRun c x.1 b).map fun y => (y.1, x.2 ++ y.2) := by
  induction a generalizing r with
  | nil => cases h : sdRun c r b <;> simp [sdRun, h]
  | cons v a ih =>
    cases h : sdStep c r v with
    | none => simp [sdRun, h]
    | some x =>
      obtain ⟨r', e⟩ := x
      simp only [List.cons_append, sdRun, h, ih]
      cases sdRun c r' a with
      | none => rfl
      | some y => cases hb : sdRun c y.1 b <;> simp [hb]

/-- R170: FEED's loop is the run of the per-byte step, its events on the port in byte order (R50). -/
theorem feedBytes_eq (d : Bytes) (s : State) (f : FeedRegs) (hf : s.feed = some f) :
    feedBytes d s =
      match sdRun s.config s.sd d with
      | none => .fault .accBottom
      | some (r, es) =>
        .next { s with
          sd := r
          outPort := s.outPort ++ es.map .event
          feed := some { i := f.i + d.length, nev := f.nev + es.length } } := by
  induction d generalizing s f with
  | nil => simp [feedBytes, sdRun, ← hf]
  | cons b d ih =>
    cases h : sdStep s.config s.sd b with
    | none => simp [feedBytes, feedByte, hf, sdRun, h]
    | some x =>
      obtain ⟨r, e⟩ := x
      simp only [feedBytes, feedByte, hf, sdRun, h, andThen_next]
      rw [ih _ { i := f.i + 1, nev := f.nev + e.toList.length } (by simp)]
      simp only [emitOption_config, emitOption_sd]
      cases sdRun s.config r d with
      | none => rfl
      | some y =>
        cases e <;>
          simp [emitOption, emit] <;> omega

/-- R170: an admitted FEED whose steps all answer. -/
theorem execFeed_of_run {d : Bytes} {s : State} {r : SdRegs} {es : List Event}
    (ha : tooLong s.config d = false) (hr : sdRun s.config s.sd d = some (r, es)) :
    execFeed d s =
      .next { s with
        sd := r
        outPort := s.outPort ++ es.map .event ++ [.response (feedResponse es.length)]
        feed := none } := by
  have e := feedBytes_eq d (feedBegin s) { i := 0, nev := 0 } rfl
  simp only [feedBegin_config, feedBegin_sd, hr] at e
  simp [execFeed, admitted, admission, ha, e, feedRespond, respond]

/-- An admitted FEED faults exactly when a snapshot would read `⊥`. -/
theorem execFeed_of_bottom {d : Bytes} {s : State} (ha : tooLong s.config d = false)
    (hr : sdRun s.config s.sd d = none) : execFeed d s = .fault .accBottom := by
  have e := feedBytes_eq d (feedBegin s) { i := 0, nev := 0 } rfl
  simp only [feedBegin_config, feedBegin_sd, hr] at e
  simp [execFeed, admitted, admission, ha, e]

/-! ### The inversion of `exec` -/

/-- Everything a command can do when it answers a next state. -/
inductive Answers (s : State) : Instr → State → Prop
  /-- A check failed: the refusal's response and nothing else (R201). -/
  | refused {i : Instr} {code : Byte} (h : admission i.format s.config i.operand = some code) :
      Answers s i (raiseError code s)
  | enc {d f : Bytes} (ha : tooLong s.config d = false) (hf : encData d = some f) :
      Answers s (.enc d)
        (respond (encResponse f) { s with enc := none })
  | dec {d : Bytes} (ha : tooLong s.config d = false) :
      Answers s (.dec d) (respond (decOf d) { s with dec := none })
  | feed {d : Bytes} {r : SdRegs} {es : List Event} (ha : tooLong s.config d = false)
      (hr : sdRun s.config s.sd d = some (r, es)) :
      Answers s (.feed d)
        { s with
          sd := r
          outPort := s.outPort ++ es.map .event ++ [.response (feedResponse es.length)]
          feed := none }
  | sreset :
      Answers s (.sreset [])
        (respond (sresetResponse s.sd) { s with sd := SdRegs.reset })
  | sstat :
      Answers s (.sstat [])
        (respond (sstatResponse s.sd) s)

/-- A command that fails a check answers its refusal. -/
theorem exec_of_refused {i : Instr} {s : State} {code : Byte}
    (h : admission i.format s.config i.operand = some code) : exec i s = .next (raiseError code s) := by
  cases i <;> simp only [exec, execEnc, execDec, execFeed, execSreset, execSstat, execReservedZero,
    execReservedHigh] <;> exact admitted_of_fail h

theorem execSreset_nil (s : State) :
    execSreset [] s =
      .next (respond (sresetResponse s.sd) { s with sd := SdRegs.reset }) := by
  simp [execSreset, admitted, admission_cmdN, sresetRun]

theorem execSstat_nil (s : State) :
    execSstat [] s =
      .next (respond (sstatResponse s.sd) s) := by
  simp [execSstat, admitted, admission_cmdN, sstatRun]

/-- `exec` answers a next state exactly as `Answers` says. -/
theorem exec_eq_next_iff {i : Instr} {s t : State} : exec i s = .next t ↔ Answers s i t := by
  constructor
  · intro h
    cases ha : admission i.format s.config i.operand with
    | some code =>
      rw [exec_of_refused ha] at h
      cases h
      exact .refused ha
    | none =>
      cases i with
      | enc d =>
        have hl : tooLong s.config d = false := by simpa [Instr.format, Instr.operand, admission_cmdD] using ha
        cases hf : encData d with
        | none => rw [exec, execEnc_of_bottom hl hf] at h; cases h
        | some f => rw [exec, execEnc_of_data hl hf] at h; cases h; exact .enc hl hf
      | dec d =>
        have hl : tooLong s.config d = false := by simpa [Instr.format, Instr.operand, admission_cmdD] using ha
        rw [exec, execDec_of_admitted hl] at h
        cases h
        exact .dec hl
      | feed d =>
        have hl : tooLong s.config d = false := by simpa [Instr.format, Instr.operand, admission_cmdD] using ha
        cases hr : sdRun s.config s.sd d with
        | none => rw [exec, execFeed_of_bottom hl hr] at h; cases h
        | some x => rw [exec, execFeed_of_run hl hr] at h; cases h; exact .feed hl hr
      | sreset d =>
        have hd : d = [] := by simpa [Instr.format, Instr.operand, admission_cmdN] using ha
        subst hd
        rw [exec, execSreset_nil] at h
        cases h
        exact .sreset
      | sstat d =>
        have hd : d = [] := by simpa [Instr.format, Instr.operand, admission_cmdN] using ha
        subst hd
        rw [exec, execSstat_nil] at h
        cases h
        exact .sstat
      | reservedZero d => simp [Instr.format] at ha
      | reservedHigh opc d => simp [Instr.format] at ha
  · intro h
    cases h with
    | refused h => exact exec_of_refused h
    | enc ha hf => exact execEnc_of_data ha hf
    | dec ha => exact execDec_of_admitted ha
    | feed ha hr => exact execFeed_of_run ha hr
    | sreset => exact execSreset_nil s
    | sstat => exact execSstat_nil s

/-- Whatever a command answers, its effect on the ports is its events and then one response, and the
command port and the parameters stand. -/
theorem Answers.ports {s t : State} {i : Instr} (h : Answers s i t) :
    ∃ (es : List Event) (r : Response), t.outPort = s.outPort ++ es.map .event ++ [.response r] ∧ t.cmdPort = s.cmdPort ∧ t.config = s.config := by
  cases h with
  | refused h => exact ⟨[], _, by simp; rfl, rfl, rfl⟩
  | enc ha hf => exact ⟨[], _, by simp; rfl, rfl, rfl⟩
  | dec ha => exact ⟨[], _, by simp; rfl, rfl, rfl⟩
  | @feed d r es ha hr => exact ⟨es, _, rfl, rfl, rfl⟩
  | sreset => exact ⟨[], _, by simp; rfl, rfl, rfl⟩
  | sstat => exact ⟨[], _, by simp; rfl, rfl, rfl⟩

/-- A command's effect does not depend on the commands that wait behind it: with any others it is the same,
and they stand. -/
theorem exec_cmdPort {i : Instr} {s t : State} (h : exec i s = .next t) (q : List Command) :
    exec i { s with cmdPort := q } = .next { t with cmdPort := q } := by
  rw [exec_eq_next_iff] at h ⊢
  cases h with
  | refused h => exact .refused (s := { s with cmdPort := q }) h
  | enc ha hf => exact .enc (s := { s with cmdPort := q }) ha hf
  | dec ha => exact .dec (s := { s with cmdPort := q }) ha
  | feed ha hr => exact .feed (s := { s with cmdPort := q }) ha hr
  | sreset => exact .sreset (s := { s with cmdPort := q })
  | sstat => exact .sstat (s := { s with cmdPort := q })

/-! ### `step` -/

/-- The core takes the command on the port and executes it. -/
theorem step_of_command {s : State} {c : Command} {rest : List Command} (h : s.cmdPort = c :: rest) :
    step s = exec (decodeCommand c) { s with cmdPort := rest } := by
  simp [step, fetch, h]

/-- With no command the core waits. -/
theorem step_of_empty {s : State} (h : s.cmdPort = []) : step s = .next s := by
  simp [step, fetch, h]

/-- A run goes on from the state its first step answers. -/
theorem run_of_step {k : Nat} {s t : State} (h : step s = .next t) :
    Host.Core.run Sys2Proof.core (k + 1) s = Host.Core.run Sys2Proof.core k t := by
  simp only [Host.Core.run, show Sys2Proof.core.step s = .next t from h]

end Sys2Proof.Machine
end

