-- ==== Sys2Proof/Laws/PerInstr.lean ====
section
/-! SUPPORT. A statement for each constructor of `Instr`: a well-formed instruction's opcode byte lies in
the opcode-table row its constructor stands for, the row has the constructor's format, and no other
row holds that byte (spec 30_encoding.md R61, R67). -/

namespace Sys2Proof.Laws.RowOpcode

/-- The instruction's opcode byte belongs to exactly the row of its constructor, in its format. -/
def Statement (i : Instr) : Prop :=
  i.wellFormed = true → ∀ k r, opcodeTable[k]? = some r →
    (r.holds i.opcode = decide (k = i.rowIndex)) ∧ (k = i.rowIndex → r.format = i.format)

/-- The table has seven rows: a property of each row is seven facts. -/
theorem forall_rows {P : Nat → OpcodeRow → Prop}
    (h0 : P 0 { lo := 0x01, hi := 0x01, format := .cmdD }) (h1 : P 1 { lo := 0x02, hi := 0x02, format := .cmdD })
    (h2 : P 2 { lo := 0x03, hi := 0x03, format := .cmdD }) (h3 : P 3 { lo := 0x04, hi := 0x04, format := .cmdN })
    (h4 : P 4 { lo := 0x05, hi := 0x05, format := .cmdN }) (h5 : P 5 { lo := 0x00, hi := 0x00, format := .cmdAny })
    (h6 : P 6 { lo := 0x06, hi := 0xFF, format := .cmdAny }) :
    ∀ k r, opcodeTable[k]? = some r → P k r := by
  intro k r h
  match k with
  | 0 => cases h; exact h0
  | 1 => cases h; exact h1
  | 2 => cases h; exact h2
  | 3 => cases h; exact h3
  | 4 => cases h; exact h4
  | 5 => cases h; exact h5
  | 6 => cases h; exact h6
  | k + 7 => simp [opcodeTable] at h

theorem enc (d : Bytes) : Statement (.enc d) := fun _ => by
  apply forall_rows <;> exact ⟨rfl, by simp [Instr.rowIndex, Instr.format]⟩

theorem dec (d : Bytes) : Statement (.dec d) := fun _ => by
  apply forall_rows <;> exact ⟨rfl, by simp [Instr.rowIndex, Instr.format]⟩

theorem feed (d : Bytes) : Statement (.feed d) := fun _ => by
  apply forall_rows <;> exact ⟨rfl, by simp [Instr.rowIndex, Instr.format]⟩

theorem sreset (d : Bytes) : Statement (.sreset d) := fun _ => by
  apply forall_rows <;> exact ⟨rfl, by simp [Instr.rowIndex, Instr.format]⟩

theorem sstat (d : Bytes) : Statement (.sstat d) := fun _ => by
  apply forall_rows <;> exact ⟨rfl, by simp [Instr.rowIndex, Instr.format]⟩

theorem reservedZero (d : Bytes) : Statement (.reservedZero d) := fun _ => by
  apply forall_rows <;> exact ⟨rfl, by simp [Instr.rowIndex, Instr.format]⟩

theorem reservedHigh (opc : Byte) (d : Bytes) : Statement (.reservedHigh opc d) := fun h => by
  have h6 : 6 ≤ opc.toNat := by simpa [Instr.wellFormed, reservedOpcode] using h
  have h255 : opc.toNat ≤ 255 := by have := opc.isLt; omega
  have key : ∀ k (r : OpcodeRow), (r.lo ≤ opc.toNat ∧ opc.toNat ≤ r.hi ↔ k = 6) →
      r.holds opc = decide (k = 6) := fun k r hr => by
    rw [Bool.eq_iff_iff]
    simpa [OpcodeRow.holds] using hr
  apply forall_rows
  all_goals
    refine ⟨key _ _ ?_, by simp [Instr.rowIndex, Instr.format]⟩
    dsimp only
    omega

end Sys2Proof.Laws.RowOpcode
end

