-- ==== Sys2Proof/Laws/StreamDecoder.lean ====
section
/-! SUPPORT. What one received byte can do, once; and the accumulator seen as the payload received so far,
kept up to the capacity, with the run of the per-byte step over data bytes and blocks. -/

namespace Sys2Proof.Machine

/-! ### The per-byte step -/

/-- R160: everything a byte can do when the step answers: a data byte, an overhead byte, an idle
delimiter, or an event with the reset. -/
theorem sdStep_cases {c : Config} {r r' : SdRegs} {b : Byte} {e : Option Event} (h : sdStep c r b = some (r', e)) :
    (b ≠ 0x00#8 ∧ r.cpy ≠ 0x00#8 ∧ r' = dataByte c r b ∧ e = none) ∨
      (b ≠ 0x00#8 ∧ r.cpy = 0x00#8 ∧ r' = overheadByte c r b ∧ e = none) ∨
      (b = 0x00#8 ∧ idle r = true ∧ r' = r ∧ e = none) ∨
      (b = 0x00#8 ∧ idle r = false ∧ r' = SdRegs.reset ∧
        ∃ p, sdSnapshot r = some p ∧
          e = some (if r.cpy ≠ 0x00#8 then .ferr (dibCause r) p
            else if r.ovf then .ferr causeOvf p else .frame p)) := by
  unfold sdStep at h
  by_cases hc : r.cpy = 0x00#8
  · simp only [hc, ne_eq, not_true_eq_false, if_false] at h
    by_cases hb : b = 0x00#8
    · simp only [hb, if_true, delimiter] at h
      by_cases hi : idle r = true
      · simp only [hi, if_true, Option.some.injEq, Prod.mk.injEq] at h
        exact .inr (.inr (.inl ⟨hb, hi, h.1.symm, h.2.symm⟩))
      · have hi' : idle r = false := by simpa using hi
        simp only [hi', Bool.false_eq_true, if_false] at h
        by_cases ho : r.ovf = true
        · simp only [ho, if_true] at h
          obtain ⟨p, hp, rfl, rfl⟩ := frameError_eq_some.1 h
          exact .inr (.inr (.inr ⟨hb, hi', rfl, p, hp, by simp [hc, ho]⟩))
        · have ho' : r.ovf = false := by simpa using ho
          simp only [ho', Bool.false_eq_true, if_false] at h
          obtain ⟨p, hp, rfl, rfl⟩ := frameComplete_eq_some.1 h
          exact .inr (.inr (.inr ⟨hb, hi', rfl, p, hp, by simp [hc, ho']⟩))
    · simp only [hb, if_false, Option.some.injEq, Prod.mk.injEq] at h
      exact .inr (.inl ⟨hb, hc, h.1.symm, h.2.symm⟩)
  · simp only [ne_eq, hc, not_false_eq_true, if_true] at h
    by_cases hb : b = 0x00#8
    · simp only [hb, not_true_eq_false, if_false, delimInBlock] at h
      obtain ⟨p, hp, rfl, rfl⟩ := frameError_eq_some.1 h
      exact .inr (.inr (.inr ⟨hb, by simp [idle, hc], rfl, p, hp, by simp [hc]⟩))
    · simp only [hb, not_false_eq_true, if_true, Option.some.injEq, Prod.mk.injEq] at h
      exact .inl ⟨hb, hc, h.1.symm, h.2.symm⟩

/-- The step answers whenever the snapshot holds a value. -/
theorem sdStep_isSome {c : Config} {r : SdRegs} {b : Byte} {p : Bytes} (h : sdSnapshot r = some p) :
    ∃ r' e, sdStep c r b = some (r', e) := by
  unfold sdStep delimiter delimInBlock frameError frameComplete
  simp only [h]
  split <;> split <;> (try split) <;> (try split) <;> exact ⟨_, _, rfl⟩

/-! ### The accumulator as the payload received so far -/

/-- The capacity's part of the payload `q` received so far: what `SD.ACC` keeps of it (R165). -/
def kept (c : Config) (q : Bytes) : Bytes :=
  match c.accCap with
  | none => q
  | some cap => q.take cap

/-- The registers hold the payload `q` received so far: its kept part in `SD.ACC`, and `SD.OVF` when that
is not all of it. -/
structure Stored (c : Config) (r : SdRegs) (q : Bytes) : Prop where
  len : r.len = (kept c q).length
  slice : sdSnapshot r = some (kept c q)
  ovf : r.ovf = decide ((kept c q).length < q.length)

theorem stored_reset (c : Config) : Stored c SdRegs.reset [] := by
  cases h : c.accCap <;> exact ⟨by simp [kept, h, SdRegs.reset], by simp [kept, h, SdRegs.reset, sdSnapshot], by
    simp [kept, h, SdRegs.reset]⟩

/-- R165: an append stores one byte more of the payload. -/
theorem stored_append {c : Config} {r : SdRegs} {q : Bytes} (h : Stored c r q) (v : Byte) :
    Stored c (sdAppend c r v) (q ++ [v]) := by
  obtain ⟨hl, hs, ho⟩ := h
  rcases sdAppend_cases c r v with ⟨hr, e⟩ | ⟨hr, e⟩
  · have hk : kept c q = q ∧ kept c (q ++ [v]) = q ++ [v] := by
      unfold hasRoom at hr
      unfold kept at hl ⊢
      cases hc : c.accCap with
      | none => simp
      | some cap =>
        simp only [hc, decide_eq_true_eq, List.length_take] at hr hl ⊢
        have : q.length < cap := by omega
        exact ⟨List.take_of_length_le (by omega), List.take_of_length_le (by simp; omega)⟩
    rw [hk.1] at hl hs ho
    rw [e]
    refine ⟨by simp [hk.2, hl], ?_, by simp [hk.2, ho]⟩
    simp only [sdSnapshot] at hs ⊢
    rw [hk.2]
    exact Memory.slice_write_end v hs
  · have hk : kept c (q ++ [v]) = kept c q ∧ (kept c q).length < (q ++ [v]).length := by
      unfold hasRoom at hr
      unfold kept at hl ⊢
      cases hc : c.accCap with
      | none => simp [hc] at hr
      | some cap =>
        simp only [hc, decide_eq_false_iff_not, List.length_take, List.length_append, List.length_cons,
          List.length_nil] at hr hl ⊢
        have : cap ≤ q.length := by omega
        refine ⟨?_, by omega⟩
        rw [List.take_append_of_le_length this]
    rw [e]
    exact ⟨by rw [hk.1]; exact hl, by rw [hk.1]; exact hs, by rw [hk.1]; simpa using hk.2⟩

/-- Only the accumulator's registers matter to what is stored. -/
theorem stored_congr {c : Config} {r r' : SdRegs} {q : Bytes} (h : Stored c r q) (h₁ : r'.acc = r.acc)
    (h₂ : r'.len = r.len) (h₃ : r'.ovf = r.ovf) : Stored c r' q :=
  ⟨by rw [h₂]; exact h.len, by unfold sdSnapshot; rw [h₁, h₂]; exact h.slice, by rw [h₃]; exact h.ovf⟩

/-- R161: the run over data bytes within the block. -/
theorem sdRun_data (c : Config) (d : Bytes) (r : SdRegs) (q : Bytes) (hd : ∀ b ∈ d, b ≠ 0x00#8)
    (hl : d.length ≤ r.cpy.toNat) (h : Stored c r q) :
    ∃ r', sdRun c r d = some (r', []) ∧ Stored c r' (q ++ d) ∧ r'.ovh = r.ovh ∧
      r'.cpy = r.cpy - BitVec.ofNat 8 d.length := by
  induction d generalizing r q with
  | nil => exact ⟨r, rfl, by simpa using h, rfl, by simp⟩
  | cons b d ih =>
    simp only [List.length_cons] at hl
    have hb := hd b (by simp)
    have hc : r.cpy ≠ 0x00#8 := by
      intro hc
      rw [hc] at hl
      simp at hl
    have hn : (r.cpy - 1#8).toNat = r.cpy.toNat - 1 := by
      have := r.cpy.isLt
      simp only [BitVec.toNat_sub, BitVec.toNat_ofNat]
      omega
    have hstep : sdStep c r b = some (dataByte c r b, none) := by simp [sdStep, hc, hb]
    have hst : Stored c (dataByte c r b) (q ++ [b]) := stored_congr (stored_append h b) rfl rfl rfl
    obtain ⟨r', h₁, h₂, h₃, h₄⟩ := ih (dataByte c r b) (q ++ [b]) (fun x hx => hd x (List.mem_cons_of_mem _ hx))
      (by simp only [dataByte, sdAppend_cpy, hn]; omega) hst
    refine ⟨r', by simp [sdRun, hstep, h₁], by simpa using h₂, by simpa [dataByte] using h₃, ?_⟩
    rw [h₄]
    simp only [dataByte, sdAppend_cpy, List.length_cons]
    rw [Nat.add_comm, BitVec.ofNat_add, sub_sub]

/-- R163, R161: the run over one complete block. -/
theorem sdRun_block (c : Config) (b : Block) (r : SdRegs) (q : Bytes) (hb : b.complete = true) (hc : r.cpy = 0x00#8)
    (h : Stored c r q) :
    ∃ r', sdRun c r (b.ovh :: b.data) = some (r', []) ∧ Stored c r' (q ++ zeroBefore r.ovh ++ b.data) ∧
      r'.ovh = b.ovh ∧ r'.cpy = 0x00#8 := by
  obtain ⟨hs, hd⟩ := Block.complete_iff.1 hb
  obtain ⟨hv, hl⟩ := Block.shaped_iff.1 hs
  have hpos : 0 < b.ovh.toNat := Nat.pos_of_ne_zero fun h => hv (BitVec.eq_of_toNat_eq (by simpa using h))
  have hn : (b.ovh - 1#8).toNat = b.ovh.toNat - 1 := by
    have := b.ovh.isLt
    simp only [BitVec.toNat_sub, BitVec.toNat_ofNat]
    omega
  have hstep : sdStep c r b.ovh = some (overheadByte c r b.ovh, none) := by simp [sdStep, hc, hv]
  have hst : Stored c (overheadByte c r b.ovh) (q ++ zeroBefore r.ovh) := by
    by_cases ho : r.ovh = sentinel
    · simp only [overheadByte, zeroBefore, ho, ne_eq, not_true_eq_false, if_false, List.append_nil]
      exact stored_congr h rfl rfl rfl
    · simp only [overheadByte, zeroBefore, ho, ne_eq, not_false_eq_true, if_true]
      exact stored_congr (stored_append h 0x00#8) rfl rfl rfl
  obtain ⟨r', h₁, h₂, h₃, h₄⟩ := sdRun_data c b.data (overheadByte c r b.ovh) _ hd
    (by simp only [overheadByte, hn, hl, dataCount]; omega) hst
  refine ⟨r', by simp [sdRun, hstep, h₁], h₂, h₃, ?_⟩
  rw [h₄]
  apply BitVec.eq_of_toNat_eq
  have := b.ovh.isLt
  simp only [overheadByte, BitVec.toNat_sub, BitVec.toNat_ofNat, hl, dataCount]
  omega

/-- R163, R161: the run over complete blocks. -/
theorem sdRun_blocks (c : Config) (bs : List Block) (r : SdRegs) (q : Bytes) (hb : bs.all Block.complete = true)
    (hc : r.cpy = 0x00#8) (h : Stored c r q) :
    ∃ r', sdRun c r (frameBytes bs) = some (r', []) ∧
      Stored c r' (q ++ if bs = [] then [] else zeroBefore r.ovh ++ framePayload bs) ∧
      r'.ovh = lastOvh r.ovh bs ∧ r'.cpy = 0x00#8 := by
  induction bs generalizing r q with
  | nil => exact ⟨r, rfl, by simpa using h, rfl, hc⟩
  | cons b bs ih =>
    simp only [List.all_cons, Bool.and_eq_true] at hb
    obtain ⟨r₁, h₁, h₂, h₃, h₄⟩ := sdRun_block c b r q hb.1 hc h
    obtain ⟨r₂, g₁, g₂, g₃, g₄⟩ := ih r₁ _ hb.2 h₄ h₂
    refine ⟨r₂, ?_, ?_, ?_, g₄⟩
    · rw [frameBytes_cons, sdRun_append, h₁]
      simp [g₁]
    · rw [h₃] at g₂
      have e : b.data ++ (if bs = [] then [] else zeroBefore b.ovh ++ framePayload bs) = framePayload (b :: bs) := by
        cases bs with
        | nil => simp [framePayload]
        | cons x bs =>
          by_cases hs : b.ovh = sentinel <;> simp [framePayload, zeroBefore, impliedZero, Block.saturated, hs]
      rw [if_neg (List.cons_ne_nil b bs), ← e]
      simpa using g₂
    · rw [g₃, h₃]
      cases bs with
      | nil => simp [lastOvh]
      | cons x bs => simp [lastOvh, List.getLast?_cons]

end Sys2Proof.Machine
end

