-- ==== Sys2Proof/Tests/Slice0.lean ====
section
/-! SUPPORT. Tests: ill-formed terms that WellFormed refuses, words written out from the spec's encoding,
the spec's own vectors (95_test_vectors.md, the entry named at each test), and for every statement with
hypotheses a state and operands that meet them all. -/

namespace Sys2Proof.Tests

open Sys2Proof Sys2Proof.Machine

/-! ### Small states -/

/-- A core with the given parameters and StreamingDecoder registers, between two commands. -/
def coreAt (c : Config) (r : SdRegs) : State := { State.powerOn c with sd := r }

/-- Parameters with a capacity of two bytes. -/
def capTwo : Config := { maxIn := none, accCap := some 2 }

/-- The smallest legal parameters (R10). -/
def smallest : Config := { maxIn := some 257, accCap := some 0 }

/-- 95 L2.5.2: after `FEED [03, 11]`. -/
def midFrame : SdRegs := { ovh := 0x03#8, cpy := 0x01#8, acc := [(0, 0x11#8)], len := 1, ovf := false }

/-- 95 L2.3.4: with `ACC_CAP = 2`, before the last data byte of the frame. -/
def overflowed : SdRegs :=
  { ovh := 0x05#8, cpy := 0x01#8, acc := [(0, 0x01#8), (1, 0x02#8)], len := 2, ovf := true }

/-- 95 L2.3.4: with `ACC_CAP = 2`, before the delimiter. -/
def overflowedAtEnd : SdRegs := { overflowed with cpy := 0x00#8 }

/-- 95 L2.3.1: before the delimiter. -/
def complete : SdRegs :=
  { ovh := 0x02#8, cpy := 0x00#8, acc := [(0, 0x11#8), (1, 0x22#8), (2, 0x00#8), (3, 0x33#8)], len := 4, ovf := false }

/-- 95 L2.3.4 with the capacity just reached. -/
def justFull : SdRegs :=
  { ovh := 0x03#8, cpy := 0x00#8, acc := [(0, 0x01#8), (1, 0x02#8)], len := 2, ovf := false }

def stateOf (o : Result) : Option State :=
  match o with
  | .next t => some t
  | .fault _ => none
  | .refused _ => none

def lastResponse (o : Result) : Option Response := (stateOf o).bind fun t => t.responses.getLast?

def eventsOf (o : Result) : Option (List Event) := (stateOf o).map State.events

def sdOf (o : Result) : Option SdRegs := (stateOf o).map State.sd

/-! ### WellFormed and the parameters -/

theorem test_wellFormed_refuses_table_opcode : (Instr.reservedHigh 0x05#8 []).wellFormed = false := by decide

theorem test_wellFormed_refuses_zero_opcode : (Instr.reservedHigh 0x00#8 [0x01#8]).wellFormed = false := by decide

theorem test_wellFormed_takes_first_reserved : (Instr.reservedHigh 0x06#8 []).wellFormed = true := by decide

theorem test_config_refuses_small_maxIn : Config.legal { maxIn := some 256, accCap := none } = false := by decide

theorem test_config_takes_smallest : Config.legal smallest = true := by decide

/-! ### Decoding, from the words of R67 -/

/-- The words of 95 L3.1 to L3.5: `op` and then `D`. -/
theorem test_decode_enc : decode [0b00000001#8, 0x11#8, 0x22#8, 0x00#8, 0x33#8] = .ok (.enc [0x11#8, 0x22#8, 0x00#8, 0x33#8]) := rfl

theorem test_decode_dec : decode [0b00000010#8, 0x01#8, 0x01#8] = .ok (.dec [0x01#8, 0x01#8]) := rfl

theorem test_decode_feed : decode [0b00000011#8, 0x03#8, 0x11#8] = .ok (.feed [0x03#8, 0x11#8]) := rfl

theorem test_decode_sreset : decode [0b00000100#8] = .ok (.sreset []) := rfl

theorem test_decode_sstat : decode [0b00000101#8] = .ok (.sstat []) := rfl

theorem test_decode_reserved_zero : decode [0b00000000#8, 0xAA#8] = .ok (.reservedZero [0xAA#8]) := rfl

theorem test_decode_reserved_high : decode [0b00000110#8] = .ok (.reservedHigh 0x06#8 []) := rfl

theorem test_decode_reserved_last : decode [0b11111111#8, 0x03#8, 0x11#8] = .ok (.reservedHigh 0xFF#8 [0x03#8, 0x11#8]) := rfl

theorem test_decode_empty : decode [] = .error .noOpcode := rfl

/-- A table word: bit 0 is the opcode byte's least significant bit, later bytes count on from it. -/
theorem test_decodeTableWord : decodeTableWord 24 0x221103 = some (.feed [0x11#8, 0x22#8]) := by decide

theorem test_decodeTableWord_row : decodeTableWord 8 0x04 = some (.sreset []) := by decide

/-! ### One step -/

/-- L1.1 through the command port: the first step after reset runs the presented command. -/
theorem test_step_enc_empty :
    lastResponse (step (State.reset.withFetchWord 8 0x01)) = some ⟨0x00#8, [0x01#8], 1, 0x00#8⟩ := by decide

theorem test_step_takes_one_command :
    ((stateOf (step { State.reset with cmdPort := [⟨0x05#8, []⟩, ⟨0x04#8, []⟩] })).map State.cmdPort) =
      some [⟨0x04#8, []⟩] := by decide

/-- R49: of two commands presented, the first step runs the first (L2.5.1), and the second waits. -/
theorem test_step_runs_first_presented :
    (stateOf (step (presentCommands [⟨0x05#8, []⟩, ⟨0x00#8, []⟩] State.reset))).map (fun t => (t.cmdPort, t.responses)) =
      some ([⟨0x00#8, []⟩], [⟨0x00#8, [0xFF#8, 0x00#8], 0, 0x00#8⟩]) := by decide

/-! ### The commands, from 95_test_vectors.md -/

/-- L1.3. -/
theorem test_enc_wsp :
    lastResponse (exec (.enc [0x11#8, 0x22#8, 0x00#8, 0x33#8]) State.reset) =
      some ⟨0x00#8, [0x03#8, 0x11#8, 0x22#8, 0x02#8, 0x33#8], 5, 0x00#8⟩ := by decide

/-- L2.1.17: 0xFF data in a saturated block, then one byte and a zero. -/
theorem test_enc_saturated :
    lastResponse (exec (.enc (List.replicate 255 0xFF#8 ++ [0x00#8])) State.reset) =
      some ⟨0x00#8, 0xFF#8 :: List.replicate 254 0xFF#8 ++ [0x02#8, 0xFF#8, 0x01#8], 258, 0x00#8⟩ := by decide +kernel

/-- L2.2.14: `MALF`; bytes after the abort are not read. -/
theorem test_dec_malformed :
    lastResponse (exec (.dec [0x02#8, 0x11#8, 0x00#8, 0x07#8]) State.reset) =
      some ⟨0x00#8, [0x11#8, 0x00#8], 2, 0x01#8⟩ := by decide

/-- L2.2.22: `TRUNC` and `ZDATA` together. -/
theorem test_dec_truncated_zero :
    lastResponse (exec (.dec [0x05#8, 0x11#8, 0x00#8]) State.reset) =
      some ⟨0x00#8, [0x11#8, 0x00#8], 3, 0x06#8⟩ := by decide

/-- L2.3.2: a delimiter inside a block, then recovery. -/
theorem test_feed_recovers :
    eventsOf (exec (.feed [0x05#8, 0x11#8, 0x22#8, 0x00#8, 0x03#8, 0xAA#8, 0xBB#8, 0x00#8]) State.reset) =
      some [.ferr 0x01#8 [0x11#8, 0x22#8], .frame [0xAA#8, 0xBB#8]] := by decide

/-- L2.3.5: overflow and a delimiter inside a block, `ACC_CAP = 2`. -/
theorem test_feed_overflow_in_block :
    eventsOf (exec (.feed [0x05#8, 0x01#8, 0x02#8, 0x03#8, 0x00#8]) (State.powerOn capTwo)) =
      some [.ferr 0x03#8 [0x01#8, 0x02#8]] := by decide

/-- L2.4.3 with `ACC_CAP = 2`: `OVF` and `INFLIGHT` were set. -/
theorem test_sreset_overflowed :
    lastResponse (exec (.sreset []) (coreAt capTwo overflowed)) = some ⟨0x00#8, [], 2, 0x03#8⟩ := by decide

/-- L2.6.4: SRESET with an operand does not reset. -/
theorem test_sreset_operand :
    stateOf (exec (.sreset [0x01#8]) (coreAt capTwo overflowed)) =
      some { coreAt capTwo overflowed with outPort := [.response ⟨0x02#8, [], 0, 0x00#8⟩] } := by decide

/-- L2.5.2. -/
theorem test_sstat_mid_frame :
    lastResponse (exec (.sstat []) (coreAt Config.unlimited midFrame)) =
      some ⟨0x00#8, [0x03#8, 0x01#8], 1, 0x02#8⟩ := by decide

/-- L2.6.1. -/
theorem test_reserved_zero :
    lastResponse (exec (.reservedZero []) State.reset) = some ⟨0x01#8, [], 0, 0x00#8⟩ := by decide

/-- L2.6.9 with `MAX_IN = 5`: the opcode is checked before the length. -/
theorem test_reserved_before_length :
    lastResponse (exec (.reservedHigh 0x09#8 (List.replicate 6 0x00#8)) (State.powerOn { maxIn := some 5, accCap := none })) =
      some ⟨0x01#8, [], 0, 0x00#8⟩ := by decide

/-- L2.6.10 with `MAX_IN = 5`: operand presence is checked before the length. -/
theorem test_operand_before_length :
    lastResponse (exec (.sreset (List.replicate 6 0x00#8)) (State.powerOn { maxIn := some 5, accCap := none })) =
      some ⟨0x02#8, [], 0, 0x00#8⟩ := by decide

/-- L2.6.7 with `MAX_IN = 5`: a refused FEED feeds no byte. -/
theorem test_feed_too_long :
    sdOf (exec (.feed [0x22#8, 0x02#8, 0x33#8, 0x00#8, 0x00#8, 0x00#8]) (coreAt { maxIn := some 5, accCap := none } midFrame)) =
      some midFrame := by decide

/-! ### The assembler, from R82 and 95 L3.2 -/

theorem test_assemble_enc :
    assembleLine "ENC  [11, 22, 00, 33]      ; a comment".toList =
      some { op := 0x01#8, d := [0x11#8, 0x22#8, 0x00#8, 0x33#8] } := by decide +kernel

theorem test_assemble_feedf :
    assembleLine "feedf [11, 22, 00, 33]".toList =
      some { op := 0x03#8, d := [0x03#8, 0x11#8, 0x22#8, 0x02#8, 0x33#8, 0x00#8] } := by decide +kernel

theorem test_assemble_run :
    assembleLine "OP.RAW 09 [00 × 6]".toList = some { op := 0x09#8, d := List.replicate 6 0x00#8 } := by decide +kernel

/-! ### A good state that is not the power-on state -/

/-- With `ACC_CAP = 2` the overflowed state meets R26 with `SD.OVF` set and `SD.LEN` at the capacity. -/
theorem witness_overflowed_good : SdInv capTwo overflowed :=
  { ovh_pos := by decide
    cpy_le := by decide
    len_le := fun cap h => by simp only [capTwo, Option.some.injEq] at h; subst h; decide
    ovf_full := fun _ => rfl
    acc_wf := by decide
    acc_holds := fun a => match a with
      | 0 => by decide
      | 1 => by decide
      | n + 2 => by simp [overflowed, Memory.read] }

theorem witness_good : Inv (coreAt capTwo overflowed) := ⟨witness_overflowed_good, rfl, rfl, rfl⟩

/-- The power-on registers are good too, with the smallest capacity. -/
theorem witness_reset_good : SdInv smallest SdRegs.reset :=
  { ovh_pos := by decide
    cpy_le := by decide
    len_le := fun _ _ => Nat.zero_le _
    ovf_full := fun h => by cases h
    acc_wf := by decide
    acc_holds := fun _ => by simp [SdRegs.reset] }

/-! ### Witnesses: commands and admission -/

theorem witness_OpcodeMapSelectsCommand : 6 ≤ (0x06#8).toNat ∧ 6 ≤ (0xFF#8).toNat := by decide

theorem witness_DecodeEncodeRoundTrip :
    (Instr.reservedHigh 0x06#8 [0x00#8]).wellFormed = true ∧ (Instr.reservedHigh 0xFF#8 []).wellFormed = true ∧
      (Instr.enc []).wellFormed = true ∧ ([0x00#8] : Bytes) ≠ [] := by decide

theorem witness_StepRunsDecodedCommand :
    ({ State.reset with cmdPort := [⟨0x05#8, []⟩] } : State).cmdPort = ⟨0x05#8, []⟩ :: [] ∧
      decode (0x05#8 :: []) = .ok (.sstat []) := ⟨rfl, rfl⟩

theorem witness_EmptyPortWaits : State.reset.cmdPort = [] := rfl

theorem witness_ReservedOpcodesRefused : (0x00#8 = 0x00#8 ∨ 6 ≤ (0x00#8).toNat) ∧ 6 ≤ (0x06#8).toNat := by decide

theorem witness_OperandOnSresetSstatRefused : ([0x00#8] : Bytes) ≠ [] := by decide

/-- One byte too long, with the smallest legal `MAX_IN`. -/
theorem witness_OverlongOperandRefused :
    (State.powerOn smallest).config.maxIn = some 257 ∧ 257 < (List.replicate 258 0x00#8).length := by decide +kernel

theorem witness_OverlongOperandRefused_unlimited :
    State.reset.config.maxIn = none ∧
      ∃ t r, exec (.feed [0x00#8]) State.reset = .next t ∧ t.outPort.getLast? = some (.response r) :=
  ⟨rfl, _, _, rfl, rfl⟩

theorem witness_AdmissionOrder : Inv (coreAt capTwo overflowed) := witness_good

theorem witness_RefusedCommandChangesNothing :
    ∃ t r, exec (.sstat [0x00#8]) (coreAt capTwo overflowed) = .next t ∧
      t.outPort.getLast? = some (.response r) ∧ r.status ≠ 0x00#8 :=
  ⟨_, _, rfl, rfl, by decide⟩

theorem witness_EachCommandAnswersOnceAfterItsEvents :
    ∃ t, exec (.feed [0x00#8]) (coreAt capTwo overflowed) = .next t := ⟨_, rfl⟩

/-! ### Witnesses: ENC and DEC -/

/-- An operand of exactly `MAX_IN` bytes. -/
theorem witness_EncProducesClosedForm : tooLong (State.powerOn smallest).config (List.replicate 257 0x01#8) = false := by
  decide +kernel

theorem witness_EncodedLengthBounds :
    tooLong (State.powerOn smallest).config (List.replicate 257 0x01#8) = false ∧
      ∀ g ∈ segments (List.replicate 253 0x01#8), g.length < 254 := by decide +kernel

theorem witness_EncodedFrameHasNoZero : tooLong (State.powerOn smallest).config [0x00#8, 0xFF#8] = false := by decide

theorem witness_EncodedFrameIsBlocksOfPayload : tooLong (State.powerOn smallest).config [] = false := by decide

theorem witness_DoubleBlockTail :
    tooLong (State.powerOn smallest).config (List.replicate 254 0x01#8) = false ∧
      needsTail (List.replicate 254 0x01#8) = true := by decide +kernel

theorem witness_SaturationBeforeZero :
    ({ out := [none], slot := 0, code := 0xFF#8, i := 0 } : EncRegs).code = 0xFF#8 ∧ ([0x00#8] : Bytes)[0]? = some 0x00#8 := by
  decide

theorem witness_SaturationBeforeZero_block :
    (List.replicate 254 0x01#8).length = 254 ∧ (∀ b ∈ List.replicate 254 0x01#8, b ≠ 0x00#8) ∧
      tooLong (State.powerOn smallest).config (List.replicate 254 0x01#8 ++ 0x00#8 :: []) = false := by decide +kernel

theorem witness_DecOfWholeBlocks :
    ([⟨0x03#8, [0x11#8, 0x00#8]⟩, ⟨0x01#8, []⟩] : List Block) ≠ [] ∧
      ([⟨0x03#8, [0x11#8, 0x00#8]⟩, ⟨0x01#8, []⟩] : List Block).all Block.shaped = true ∧
      tooLong State.reset.config (frameBytes [⟨0x03#8, [0x11#8, 0x00#8]⟩, ⟨0x01#8, []⟩]) = false := by decide

/-- The 0x00 at the first byte, and after a block. -/
theorem witness_DecStopsAtZeroOverhead :
    (([] : List Block).all Block.shaped = true ∧ tooLong State.reset.config (frameBytes [] ++ 0x00#8 :: []) = false) ∧
      ([⟨0x02#8, [0x11#8]⟩] : List Block).all Block.shaped = true ∧
      tooLong State.reset.config (frameBytes [⟨0x02#8, [0x11#8]⟩] ++ 0x00#8 :: [0x07#8]) = false := by decide

/-- A last block that is saturated, and one that is not. -/
theorem witness_FrameGivenWithItsDelimiter :
    (isFrame [⟨0xFF#8, List.replicate 254 0x01#8⟩] = true ∧ endsSaturated [⟨0xFF#8, List.replicate 254 0x01#8⟩] = true ∧
      tooLong (State.powerOn smallest).config (frameBytes [⟨0xFF#8, List.replicate 254 0x01#8⟩] ++ [0x00#8]) = false) ∧
      isFrame [⟨0x01#8, []⟩] = true ∧ endsSaturated [⟨0x01#8, []⟩] = false := by decide +kernel

/-- One byte short of a full block. -/
theorem witness_DecEndOfInputFlags :
    ([⟨0x01#8, []⟩] : List Block).all Block.shaped = true ∧ 0xFF#8 ≠ 0x00#8 ∧
      (List.replicate 253 0x01#8).length < dataCount 0xFF#8 ∧
      tooLong State.reset.config (frameBytes [⟨0x01#8, []⟩] ++ 0xFF#8 :: List.replicate 253 0x01#8) = false := by decide +kernel

theorem witness_DecFlagsAndCount : tooLong State.reset.config [0x02#8, 0x11#8, 0x00#8, 0x07#8] = false := by decide

theorem witness_DecOutputBound : tooLong (State.powerOn smallest).config (List.replicate 257 0x01#8) = false := by decide +kernel

theorem witness_NoFlagsIffWellFormed :
    tooLong State.reset.config [0x03#8, 0x11#8, 0x22#8, 0x02#8, 0x33#8] = false ∧
      isFrame [⟨0x03#8, [0x11#8, 0x22#8]⟩, ⟨0x02#8, [0x33#8]⟩] = true := by decide

theorem witness_SaturatedTailOptional :
    isFrame ([] ++ [⟨0xFF#8, List.replicate 254 0x01#8⟩]) = true ∧
      (⟨0xFF#8, List.replicate 254 0x01#8⟩ : Block).ovh = 0xFF#8 ∧
      tooLong (State.powerOn smallest).config
        (frameBytes ([] ++ [⟨0xFF#8, List.replicate 254 0x01#8⟩]) ++ [0x01#8]) = false := by decide +kernel

theorem witness_SaturatedTailOptional_enc :
    ∃ t r, exec (.enc [0x11#8]) State.reset = .next t ∧ t.outPort = State.reset.outPort ++ [.response r] :=
  ⟨_, _, rfl, rfl⟩

/-- A frame that ends saturated, and one that does not. -/
theorem witness_FrameIsEncodingOfItsPayload :
    (isFrame [⟨0xFF#8, List.replicate 254 0x01#8⟩] = true ∧ endsSaturated [⟨0xFF#8, List.replicate 254 0x01#8⟩] = true ∧
      tooLong (State.powerOn smallest).config (framePayload [⟨0xFF#8, List.replicate 254 0x01#8⟩]) = false) ∧
      isFrame [⟨0x02#8, [0x11#8]⟩] = true ∧ endsSaturated [⟨0x02#8, [0x11#8]⟩] = false := by decide +kernel

/-- The payload of 254 bytes, whose frame of 256 bytes the same core takes back. -/
theorem witness_BlockRoundTrip :
    tooLong (State.powerOn smallest).config (List.replicate 254 0x01#8) = false ∧
      tooLong (State.powerOn smallest).config (encClosed (List.replicate 254 0x01#8)) = false := by decide +kernel

/-! ### Witnesses: the per-byte step -/

/-- Room for one byte more. -/
theorem witness_DataByteAppends :
    (coreAt capTwo midFrame).sd.cpy ≠ 0x00#8 ∧ 0x22#8 ≠ 0x00#8 ∧ tooLong (coreAt capTwo midFrame).config [0x22#8] = false ∧
      (coreAt capTwo midFrame).config.accCap = some 2 ∧ (coreAt capTwo midFrame).sd.len < 2 := by decide

/-- The capacity reached. -/
theorem witness_DataByteAppends_full :
    (coreAt capTwo overflowed).sd.cpy ≠ 0x00#8 ∧ 0x22#8 ≠ 0x00#8 ∧ tooLong (coreAt capTwo overflowed).config [0x22#8] = false ∧
      (coreAt capTwo overflowed).config.accCap = some 2 ∧ 2 ≤ (coreAt capTwo overflowed).sd.len := by decide

/-- The first block. -/
theorem witness_OverheadByteOpensBlock :
    (State.powerOn capTwo).sd.cpy = 0x00#8 ∧ 0xFF#8 ≠ 0x00#8 ∧ tooLong (State.powerOn capTwo).config [0xFF#8] = false ∧
      (State.powerOn capTwo).sd.ovh = 0xFF#8 := by decide

/-- A block after one that was not saturated, with room (no capacity) and without. -/
theorem witness_OverheadByteOpensBlock_zero :
    (coreAt Config.unlimited complete).sd.cpy = 0x00#8 ∧ (coreAt Config.unlimited complete).sd.ovh ≠ 0xFF#8 ∧
      (coreAt Config.unlimited complete).config.accCap = none ∧
      (coreAt capTwo justFull).sd.cpy = 0x00#8 ∧ (coreAt capTwo justFull).sd.ovh ≠ 0xFF#8 ∧
      (coreAt capTwo justFull).config.accCap = some 2 ∧ 2 ≤ (coreAt capTwo justFull).sd.len ∧
      0x01#8 ≠ 0x00#8 ∧ tooLong (coreAt capTwo justFull).config [0x01#8] = false := by decide

theorem witness_DelimiterEndsFrame_idle :
    State.reset.sd.cpy = 0x00#8 ∧ tooLong State.reset.config [0x00#8] = false ∧ idle State.reset.sd = true := by decide

theorem witness_DelimiterEndsFrame_overflowed :
    (coreAt capTwo overflowedAtEnd).sd.cpy = 0x00#8 ∧ tooLong (coreAt capTwo overflowedAtEnd).config [0x00#8] = false ∧
      idle overflowedAtEnd = false ∧ overflowedAtEnd.ovf = true ∧
      Memory.slice overflowedAtEnd.acc 0 overflowedAtEnd.len = some [0x01#8, 0x02#8] := by decide

/-- Exactly `ACC_CAP` bytes are a complete frame (R167). -/
theorem witness_DelimiterEndsFrame_complete :
    (coreAt capTwo justFull).sd.cpy = 0x00#8 ∧ tooLong (coreAt capTwo justFull).config [0x00#8] = false ∧
      idle justFull = false ∧ justFull.ovf = false ∧
      Memory.slice justFull.acc 0 justFull.len = some [0x01#8, 0x02#8] := by decide

/-- With and without an overflow. -/
theorem witness_DelimiterInsideBlock :
    ((coreAt capTwo overflowed).sd.cpy ≠ 0x00#8 ∧ tooLong (coreAt capTwo overflowed).config [0x00#8] = false ∧
      Memory.slice overflowed.acc 0 overflowed.len = some [0x01#8, 0x02#8]) ∧
      (coreAt capTwo midFrame).sd.cpy ≠ 0x00#8 ∧ Memory.slice midFrame.acc 0 midFrame.len = some [0x11#8] := by decide

/-- Room for exactly the temporary append. -/
theorem witness_AppendThenRemoveIsNothing :
    capTwo.accCap = some 2 ∧ midFrame.len < 2 ∧ Memory.slice midFrame.acc 0 midFrame.len = some [0x11#8] := by decide

theorem witness_ResetAfterEveryEvent :
    (∃ r' e, sdStep capTwo overflowed 0x00#8 = some (r', some e)) ∧
      ∃ t, exec (.feed [0x00#8]) (coreAt capTwo overflowed) = .next t ∧ t.events ≠ (coreAt capTwo overflowed).events :=
  ⟨⟨_, _, rfl⟩, _, rfl, by decide⟩

/-- A byte dropped beyond the capacity, and a reset that lowers the cursor and clears `SD.OVF`. -/
theorem witness_CursorAndOverflowUntilReset :
    (∃ r', sdStep capTwo { justFull with cpy := 0x01#8 } 0x22#8 = some (r', none) ∧ r'.ovf = true) ∧
      ∃ r' e, sdStep capTwo overflowed 0x00#8 = some (r', e) ∧ r'.len < overflowed.len ∧ overflowed.ovf = true ∧ r'.ovf = false :=
  ⟨⟨_, rfl, rfl⟩, _, _, rfl, by decide, rfl, rfl⟩

theorem witness_CursorAndOverflowUntilReset_unlimited :
    Config.unlimited.accCap = none ∧ midFrame.ovf = false ∧
      ∃ r' e, sdStep Config.unlimited midFrame 0x22#8 = some (r', e) := ⟨rfl, rfl, _, _, rfl⟩

theorem witness_IdleExactlyAtReset :
    SdInv smallest SdRegs.reset ∧ idle SdRegs.reset = true ∧
      (∃ r' e, sdStep smallest SdRegs.reset 0xFF#8 = some (r', e)) ∧ 0xFF#8 ≠ 0x00#8 ∧ idle midFrame = false ∧
      ∃ r' e, sdStep smallest midFrame 0x00#8 = some (r', e) :=
  ⟨witness_reset_good, by decide, ⟨_, _, rfl⟩, by decide, by decide, _, _, rfl⟩

/-! ### Witnesses: whole chunks -/

theorem witness_FeedRunsEveryByte :
    SdInv (coreAt capTwo overflowed).config (coreAt capTwo overflowed).sd ∧
      tooLong (coreAt capTwo overflowed).config [0x00#8, 0x00#8] = false := ⟨witness_overflowed_good, rfl⟩

theorem witness_FeedWithoutEventKeepsStoredBytes :
    ∃ t, exec (.feed [0x22#8, 0x02#8]) (coreAt Config.unlimited midFrame) = .next t ∧
      t.events = (coreAt Config.unlimited midFrame).events := ⟨_, rfl, rfl⟩

theorem witness_ChunkBoundaryInvariance :
    SdInv (coreAt capTwo overflowed).config (coreAt capTwo overflowed).sd ∧
      tooLong (coreAt capTwo overflowed).config (List.flatten [[], [0x04#8, 0x00#8], [0x01#8]]) = false :=
  ⟨witness_overflowed_good, rfl⟩

/-- A payload of exactly the capacity. -/
theorem witness_StreamRoundTrip :
    (State.powerOn capTwo).sd = SdRegs.reset ∧
      List.flatten [[0x03#8], [], [0x11#8, 0x22#8, 0x00#8]] = encClosed [0x11#8, 0x22#8] ++ [0x00#8] ∧
      (∀ c ∈ ([[0x03#8], [], [0x11#8, 0x22#8, 0x00#8]] : List Bytes), tooLong (State.powerOn capTwo).config c = false) ∧
      (State.powerOn capTwo).config.accCap = some 2 ∧ ([0x11#8, 0x22#8] : Bytes).length ≤ 2 := by decide

/-- A payload of one byte more than the capacity. -/
theorem witness_StreamRoundTrip_overflow :
    List.flatten [[0x04#8, 0x11#8, 0x22#8, 0x33#8, 0x00#8]] = encClosed [0x11#8, 0x22#8, 0x33#8] ++ [0x00#8] ∧
      (∀ c ∈ ([[0x04#8, 0x11#8, 0x22#8, 0x33#8, 0x00#8]] : List Bytes), tooLong (State.powerOn capTwo).config c = false) ∧
      2 < ([0x11#8, 0x22#8, 0x33#8] : Bytes).length := by decide

/-- A non-canonical frame and its delimiter. -/
theorem witness_StreamAgreesWithDec :
    isFrame [⟨0xFF#8, List.replicate 254 0x01#8⟩] = true ∧ State.reset.sd = SdRegs.reset ∧
      tooLong State.reset.config (frameBytes [⟨0xFF#8, List.replicate 254 0x01#8⟩] ++ [0x00#8]) = false ∧
      tooLong (State.powerOn smallest).config (frameBytes [⟨0xFF#8, List.replicate 254 0x01#8⟩]) = false ∧
      State.reset.config.accCap = none := by decide +kernel

theorem witness_StreamOfFrames :
    (State.powerOn capTwo).sd = SdRegs.reset ∧
      List.flatten [[0x00#8, 0x02#8], [0x11#8, 0x00#8, 0x00#8, 0x01#8, 0x00#8]] =
        List.replicate 1 0x00#8 ++
          [([0x11#8], 1), ([], 0)].flatMap (fun x => encClosed x.1 ++ [0x00#8] ++ List.replicate x.2 0x00#8) ∧
      (∀ c ∈ ([[0x00#8, 0x02#8], [0x11#8, 0x00#8, 0x00#8, 0x01#8, 0x00#8]] : List Bytes),
        tooLong (State.powerOn capTwo).config c = false) ∧
      ∀ x ∈ ([([0x11#8], 1), ([], 0)] : List (Bytes × Nat)), x.1.length ≤ 2 := by decide

/-- 95 L2.3.7d, with exactly the capacity it needs. -/
theorem witness_MissingDelimiterJoinsPayloads :
    (State.powerOn { maxIn := none, accCap := some 3 }).sd = SdRegs.reset ∧
      tooLong { maxIn := none, accCap := some 3 } (encClosed [0x11#8] ++ encClosed [0x22#8] ++ [0x00#8]) = false ∧
      ([0x11#8] ++ [0x00#8] ++ [0x22#8] : Bytes).length ≤ 3 := by decide

/-! ### Witnesses: whole-machine rules -/

theorem witness_SideEffectsOfCommands :
    (∃ t u, exec (.enc [0x11#8]) (coreAt capTwo overflowed) = .next t ∧ exec (.enc [0x11#8]) t = .next u) ∧
      (∃ t u, exec (.sstat []) (coreAt capTwo overflowed) = .next t ∧ exec (.sstat []) t = .next u) ∧
      ∃ t u, exec (.sreset []) (coreAt capTwo overflowed) = .next t ∧ exec (.sreset []) t = .next u :=
  ⟨⟨_, _, rfl, rfl⟩, ⟨_, _, rfl, rfl⟩, _, _, rfl, rfl⟩

/-- A DEC, a FEED with a frame error, and a refused command. -/
theorem witness_NoReservedCodeIsProduced :
    (∃ t, exec (.dec [0x05#8, 0x11#8, 0x00#8]) (coreAt capTwo overflowed) = .next t) ∧
      (∃ t, exec (.feed [0x00#8]) (coreAt capTwo overflowed) = .next t) ∧
      ∃ t, exec (.reservedHigh 0x06#8 []) (coreAt capTwo overflowed) = .next t := ⟨⟨_, rfl⟩, ⟨_, rfl⟩, _, rfl⟩

theorem witness_EncDecIndependentOfState :
    (coreAt capTwo overflowed).config = (State.powerOn capTwo).config ∧
      ∃ t, exec (.dec [0x00#8]) (coreAt capTwo overflowed) = .next t := ⟨rfl, _, rfl⟩

theorem witness_ResetOnlyBySresetOrEvent :
    ∃ t, exec (.feed [0x00#8]) (coreAt capTwo overflowed) = .next t ∧ idle (coreAt capTwo overflowed).sd = false ∧
      idle t.sd = true := ⟨_, rfl, by decide, by decide⟩

theorem witness_AccumulatorContentsHidden :
    ∃ t t', exec (.feed [0x22#8, 0x00#8]) (coreAt Config.unlimited midFrame) = .next t ∧
      exec (.feed [0x22#8, 0x00#8]) { coreAt Config.unlimited midFrame with sd := { midFrame with acc := [(0, 0xAA#8)] } } = .next t' :=
  ⟨_, _, rfl, rfl⟩

theorem witness_StepKeepsInvariant : Inv { coreAt capTwo overflowed with cmdPort := [⟨0x03#8, [0x04#8, 0x00#8]⟩] } :=
  ⟨witness_overflowed_good, rfl, rfl, rfl⟩

theorem witness_ByteKeepsDecoderInvariants : SdInv capTwo overflowed := witness_overflowed_good

theorem witness_CoreNeverStops : Inv (coreAt capTwo overflowed) := witness_good

/-- One command waits, and the length of the queue bounds `k`. -/
theorem witness_CommandsRunInIssueOrder :
    Inv { coreAt capTwo overflowed with cmdPort := [⟨0x04#8, []⟩] } ∧
      2 ≤ (({ coreAt capTwo overflowed with cmdPort := [⟨0x04#8, []⟩] } : State).cmdPort ++ [(⟨0x05#8, []⟩ : Command)]).length :=
  ⟨⟨witness_overflowed_good, rfl, rfl, rfl⟩, by decide⟩

theorem witness_BlocksFoundFromOverheadBytes :
    ([⟨0x03#8, [0x11#8, 0x00#8]⟩] : List Block).all Block.shaped = true ∧
      parseFrame [0x03#8, 0x11#8, 0x00#8] = some [⟨0x03#8, [0x11#8, 0x00#8]⟩] := by decide

theorem witness_PseudoInstructionsExpand : tooLong State.reset.config [0x11#8] = false := by decide

end Sys2Proof.Tests
end

section
/-! PROOF. The decoder's invariants of spec 10_state.md R26, kept by every operation of the StreamingDecoder;
hence the per-byte step and its run over a chunk answer from every good state. -/

namespace Sys2Proof.Machine

/-- R26, R29: the reset values are good. -/
theorem sdInv_reset (c : Config) : SdInv c SdRegs.reset where
  ovh_pos := by decide
  cpy_le := by decide
  len_le _ _ := Nat.zero_le _
  ovf_full h := nomatch h
  acc_wf := rfl
  acc_holds a := by simp [SdRegs.reset]

/-- R26 (e): the snapshot an event carries never reads `⊥`. -/
theorem SdInv.snapshot {c : Config} {r : SdRegs} (h : SdInv c r) : ∃ p, sdSnapshot r = some p := by
  obtain ⟨p, hp, -⟩ := Memory.slice_isSome (m := r.acc) (n := r.len) (a := 0)
    fun b _ hb => by rw [h.acc_holds b]; simpa using hb
  exact ⟨p, hp⟩

/-- R165: there is room exactly when the capacity, if there is one, lies above the cursor. -/
theorem hasRoom_iff {c : Config} {n : Nat} : hasRoom c n = true ↔ ∀ cap, c.accCap = some cap → n < cap := by
  cases h : c.accCap <;> simp [hasRoom, h]

/-- The two block registers may take any values that meet R26 (a) and (b); the rest is the accumulator's. -/
theorem SdInv.withBlock {c : Config} {r : SdRegs} {ovh cpy : Byte} (h : SdInv c r) (ho : 1 ≤ ovh.toNat)
    (hc : cpy.toNat ≤ ovh.toNat - 1) : SdInv c { r with ovh := ovh, cpy := cpy } :=
  { h with ovh_pos := ho, cpy_le := hc }

/-- R165: an append keeps R26, with room and without. -/
theorem SdInv.append {c : Config} {r : SdRegs} (h : SdInv c r) (v : Byte) : SdInv c (sdAppend c r v) := by
  rcases sdAppend_cases c r v with ⟨hroom, e⟩ | ⟨hfull, e⟩ <;> rw [e]
  · have hlt := hasRoom_iff.1 hroom
    refine { h with len_le := hlt, ovf_full := fun ho => ?_, acc_wf := Memory.write_wf h.acc_wf _ _,
                    acc_holds := fun a => ?_ }
    · exact absurd (hlt _ (h.ovf_full ho)) (Nat.lt_irrefl _)
    · by_cases ha : a = r.len
      · simp [ha]
      · rw [Memory.read_write_other _ _ ha, h.acc_holds a]
        exact decide_eq_decide.2 (show a < r.len ↔ a < r.len + 1 by omega)
  · refine { h with ovf_full := fun _ => ?_ }
    have hcap : ∃ cap, c.accCap = some cap ∧ cap ≤ r.len := by
      simpa [hfull] using mt (hasRoom_iff (c := c) (n := r.len)).2
    obtain ⟨cap, hc, hle⟩ := hcap
    rw [hc, Nat.le_antisymm (h.len_le cap hc) hle]

/-- Counting a non-zero byte down stays above zero. -/
theorem toNat_sub_one_of_ne_zero {b : Byte} (h : b ≠ 0x00#8) : 1 ≤ b.toNat ∧ (b - 1#8).toNat = b.toNat - 1 := by
  bv_omega

/-- R161: a data byte keeps R26. -/
theorem SdInv.dataByte {c : Config} {r : SdRegs} {b : Byte} (h : SdInv c r) (hc : r.cpy ≠ 0x00#8) :
    SdInv c (dataByte c r b) := by
  obtain ⟨-, hsub⟩ := toNat_sub_one_of_ne_zero hc
  have ha := h.append b
  refine ha.withBlock ha.ovh_pos ?_
  rw [sdAppend_cpy, sdAppend_ovh, hsub]
  exact (Nat.sub_le _ _).trans h.cpy_le

/-- R163: an overhead byte keeps R26. -/
theorem SdInv.overheadByte {c : Config} {r : SdRegs} {b : Byte} (h : SdInv c r) (hb : b ≠ 0x00#8) :
    SdInv c (overheadByte c r b) := by
  obtain ⟨hpos, hsub⟩ := toNat_sub_one_of_ne_zero hb
  have hz : SdInv c (if r.ovh ≠ sentinel then sdAppend c r 0x00#8 else r) := by
    split
    · exact h.append 0x00#8
    · exact h
  exact hz.withBlock hpos hsub.le

/-- R26, R160: from good registers every byte's step answers, and its registers are good. -/
theorem SdInv.sdStep_keeps {c : Config} {r : SdRegs} (h : SdInv c r) (b : Byte) :
    ∃ r' e, sdStep c r b = some (r', e) ∧ SdInv c r' := by
  obtain ⟨p, hp⟩ := h.snapshot
  obtain ⟨r', e, hstep⟩ := sdStep_isSome (c := c) (b := b) hp
  refine ⟨r', e, hstep, ?_⟩
  rcases sdStep_cases hstep with ⟨-, hc, rfl, -⟩ | ⟨hb, -, rfl, -⟩ | ⟨-, -, rfl, -⟩ | ⟨-, -, rfl, -⟩
  · exact h.dataByte hc
  · exact h.overheadByte hb
  · exact h
  · exact sdInv_reset c

/-- R26, R170: from good registers the run over a chunk answers, and its registers are good. -/
theorem SdInv.sdRun_keeps {c : Config} {r : SdRegs} (h : SdInv c r) (d : Bytes) :
    ∃ r' es, sdRun c r d = some (r', es) ∧ SdInv c r' := by
  induction d generalizing r with
  | nil => exact ⟨r, [], rfl, h⟩
  | cons b d ih =>
    obtain ⟨r₁, e, hstep, h₁⟩ := h.sdStep_keeps b
    obtain ⟨r₂, es, hrun, h₂⟩ := ih h₁
    exact ⟨r₂, e.toList ++ es, by simp [sdRun, hstep, hrun], h₂⟩

end Sys2Proof.Machine
end

section
/-! PROOF. From every good state every command answers a next state, and that state is good. -/

namespace Sys2Proof.Machine

/-- R105, R107: ENC's data is the closed form of the payload; no slot is left at `⊥`. -/
theorem encData_eq_encClosed (p : Bytes) : encData p = some (encClosed p) := by
  obtain ⟨-, hout⟩ := encLoop_encAt (encPasses p) [] [] p p 0 (by simp) (by simp) rfl (Nat.zero_le _)
    (by simp [encPasses])
  simpa [encData, encInit_eq] using congrArg bufBytes hout

/-- The commands that wait are no part of what makes a state good. -/
theorem Inv.withCmdPort {s : State} (h : Inv s) (q : List Command) : Inv { s with cmdPort := q } := ⟨h.sd, h.quiet⟩

/-- R26, R30: whatever a command answers from a good state is a good state. -/
theorem Answers.inv {s t : State} {i : Instr} (h : Answers s i t) (hs : Inv s) : Inv t := by
  obtain ⟨hsd, henc, hdec, hfeed⟩ := hs
  cases h with
  | refused _ => exact ⟨hsd, henc, hdec, hfeed⟩
  | enc _ _ => exact ⟨hsd, rfl, hdec, hfeed⟩
  | dec _ => exact ⟨hsd, henc, rfl, hfeed⟩
  | @feed d r es _ hr =>
    obtain ⟨r', es', hr', hinv⟩ := hsd.sdRun_keeps d
    obtain ⟨rfl, -⟩ : r' = r ∧ es' = es := by simpa [hr] using hr'.symm
    exact ⟨hinv, henc, hdec, rfl⟩
  | sreset => exact ⟨sdInv_reset _, henc, hdec, hfeed⟩
  | sstat => exact ⟨hsd, henc, hdec, hfeed⟩

/-- R209: from a good state every command answers a next state. -/
theorem Inv.exec_next {s : State} (h : Inv s) (i : Instr) : ∃ t, exec i s = .next t := by
  cases ha : admission i.format s.config i.operand with
  | some code => exact ⟨_, exec_of_refused ha⟩
  | none =>
    cases i with
    | enc d =>
      have hl : tooLong s.config d = false := by simpa [Instr.format, Instr.operand, admission_cmdD] using ha
      exact ⟨_, execEnc_of_data hl (encData_eq_encClosed d)⟩
    | dec d =>
      have hl : tooLong s.config d = false := by simpa [Instr.format, Instr.operand, admission_cmdD] using ha
      exact ⟨_, execDec_of_admitted hl⟩
    | feed d =>
      have hl : tooLong s.config d = false := by simpa [Instr.format, Instr.operand, admission_cmdD] using ha
      obtain ⟨r, es, hr, -⟩ := h.sd.sdRun_keeps d
      exact ⟨_, execFeed_of_run hl hr⟩
    | sreset d =>
      obtain rfl : d = [] := by simpa [Instr.format, Instr.operand, admission_cmdN] using ha
      exact ⟨_, execSreset_nil s⟩
    | sstat d =>
      obtain rfl : d = [] := by simpa [Instr.format, Instr.operand, admission_cmdN] using ha
      exact ⟨_, execSstat_nil s⟩
    | reservedZero d => simp [Instr.format] at ha
    | reservedHigh opc d => simp [Instr.format] at ha

/-- R26, R209: a command runs from a good state to a good state. -/
theorem Inv.exec_keeps {s : State} (h : Inv s) (i : Instr) : ∃ t, exec i s = .next t ∧ Inv t := by
  obtain ⟨t, ht⟩ := h.exec_next i
  exact ⟨t, ht, (exec_eq_next_iff.1 ht).inv h⟩

end Sys2Proof.Machine
end

section
/-! PROOF. Commands one after another: what a sequence of them answers, and that the steps of the core over a
port that holds them are that sequence (spec 20_memory.md R49). -/

namespace Sys2Proof.Machine

/-- A sequence answers exactly when its first command does and the others do from there. -/
theorem runCommands_cons {i : Instr} {is : List Instr} {s t : State} :
    runCommands (i :: is) s = .next t ↔ ∃ u, exec i s = .next u ∧ runCommands is u = .next t :=
  andThen_eq_next

/-- A command leaves the commands that wait. -/
theorem exec_keeps_cmdPort {i : Instr} {s t : State} (h : exec i s = .next t) : t.cmdPort = s.cmdPort := by
  obtain ⟨-, -, -, hport, -⟩ := (exec_eq_next_iff.1 h).ports
  exact hport

/-- R49, R60: a command gives one response. -/
theorem exec_responses {i : Instr} {s t : State} (h : exec i s = .next t) :
    ∃ r, t.responses = s.responses ++ [r] := by
  obtain ⟨_, r, hout, -, -⟩ := (exec_eq_next_iff.1 h).ports
  exact ⟨r, responses_of_outPort hout⟩

/-- R209: from a good state every sequence of commands answers. -/
theorem Inv.runCommands_next {s : State} (h : Inv s) (is : List Instr) : ∃ t, runCommands is s = .next t := by
  induction is generalizing s with
  | nil => exact ⟨s, rfl⟩
  | cons i is ih =>
    obtain ⟨u, hu, hinv⟩ := h.exec_keeps i
    obtain ⟨t, ht⟩ := ih hinv
    exact ⟨t, runCommands_cons.2 ⟨u, hu, ht⟩⟩

/-- A sequence of commands leaves the commands that wait. -/
theorem runCommands_keeps_cmdPort {is : List Instr} {s t : State} (h : runCommands is s = .next t) :
    t.cmdPort = s.cmdPort := by
  induction is generalizing s with
  | nil => cases h; rfl
  | cons i is ih =>
    obtain ⟨u, hu, ht⟩ := runCommands_cons.1 h
    exact (ih ht).trans (exec_keeps_cmdPort hu)

/-- R49, R60: a sequence gives one response per command, and its first `k` commands alone give the first `k`
of them: the responses stand in the order of the commands. -/
theorem runCommands_responses {is : List Instr} {s t : State} (h : runCommands is s = .next t) :
    ∃ rs : List Response, t.responses = s.responses ++ rs ∧ rs.length = is.length ∧
      ∀ k, ∃ u, runCommands (is.take k) s = .next u ∧ u.responses = s.responses ++ rs.take k := by
  induction is generalizing s with
  | nil =>
    cases h
    exact ⟨[], by simp, rfl, fun k => ⟨t, by simp [runCommands], by simp⟩⟩
  | cons i is ih =>
    obtain ⟨u, hu, ht⟩ := runCommands_cons.1 h
    obtain ⟨r, hr⟩ := exec_responses hu
    obtain ⟨rs, hrs, hlen, hprefix⟩ := ih ht
    refine ⟨r :: rs, by simp [hrs, hr], by simp [hlen], fun k => ?_⟩
    cases k with
    | zero => exact ⟨s, rfl, by simp⟩
    | succ k =>
      obtain ⟨v, hv, hvr⟩ := hprefix k
      exact ⟨v, runCommands_cons.2 ⟨u, hu, hv⟩, by simp [hvr, hr]⟩

/-- R49: with commands `cs` on the port, as many steps answer what executing the commands they decode to, one
after another, answers. -/
theorem run_of_runCommands {cs : List Command} {s t : State}
    (h : runCommands (cs.map decodeCommand) { s with cmdPort := [] } = .next t) :
    Host.Core.run Sys2Proof.core cs.length { s with cmdPort := cs } = .next t := by
  induction cs generalizing s with
  | nil => exact h
  | cons c cs ih =>
    obtain ⟨u, hu, ht⟩ := runCommands_cons.1 h
    have hport : u.cmdPort = [] := exec_keeps_cmdPort hu
    have hempty : { u with cmdPort := [] } = u := by rw [← hport]
    have hstep : step { s with cmdPort := c :: cs } = .next { u with cmdPort := cs } :=
      (step_of_command rfl).trans (exec_cmdPort hu cs)
    rw [List.length_cons, run_of_step hstep]
    exact ih (by rwa [hempty])

/-- The bytes of a command decode to what the core makes of the command. -/
theorem decode_command (c : Command) : decode (c.op :: c.d) = .ok (decodeCommand c) := rfl

/-- Settles O3: a step's command is the one its bytes decode to. -/
theorem stepRunsDecodedCommand : Obligations.StepRunsDecodedCommand := by
  intro s c rest i hport hdecode
  obtain rfl : decodeCommand c = i := by simpa [decode_command] using hdecode
  exact step_of_command hport

/-- Settles O60: from a good state the sequence of commands answers, the steps of the core are that sequence,
and every command adds its one response. -/
theorem commandsRunInIssueOrder : Obligations.CommandsRunInIssueOrder := by
  intro s cs hs
  obtain ⟨t, ht⟩ := (hs.withCmdPort []).runCommands_next ((s.cmdPort ++ cs).map decodeCommand)
  obtain ⟨rs, hrs, hlen, hprefix⟩ := runCommands_responses ht
  refine ⟨t, rs, ?_, runCommands_keeps_cmdPort ht, ht, hrs, by simpa using hlen, fun k _ => ?_⟩
  · rw [presentCommands_eq]
    exact run_of_runCommands ht
  · rw [List.map_take]
    exact hprefix k

end Sys2Proof.Machine
end

section
/-! PROOF. The state's own statements about good states: they hold after power-on, and every byte and every
step keeps them (spec 10_state.md R26, R30). -/

namespace Sys2Proof.Machine

/-- R26, R30, R231: the power-on state is good, whatever the parameters. -/
theorem inv_powerOn (c : Config) : Inv (State.powerOn c) := ⟨sdInv_reset c, rfl, rfl, rfl⟩

/-- Settles O54: the reset values are good and nothing runs. -/
theorem invariantAtPowerOn : Obligations.InvariantAtPowerOn := ⟨inv_powerOn, inv_powerOn _⟩

/-- Settles O56: every case of the per-byte step keeps the invariants. -/
theorem byteKeepsDecoderInvariants : Obligations.ByteKeepsDecoderInvariants := fun _ _ b h => h.sdStep_keeps b

/-- Settles O55: with no command the state stands, and a command runs from a good state to a good state. -/
theorem stepKeepsInvariant : Obligations.StepKeepsInvariant := by
  intro s hs
  cases hport : s.cmdPort with
  | nil => exact ⟨s, step_of_empty hport, hs⟩
  | cons c rest =>
    rw [step_of_command hport]
    exact (hs.withCmdPort rest).exec_keeps (decodeCommand c)

end Sys2Proof.Machine
end

section
/-! PROOF. Between two events the accumulator only grows: the cursor never falls, the stored bytes stand and
`SD.OVF` stays set (spec 10_state.md R23 to R25). A reset is the only other thing a byte can do. -/

namespace Sys2Proof.Machine

/-- R165: there is no room exactly when there is a capacity and the cursor has reached it. -/
theorem hasRoom_eq_false_iff {c : Config} {n : Nat} :
    hasRoom c n = false ↔ ∃ cap, c.accCap = some cap ∧ cap ≤ n := by
  cases h : c.accCap <;> simp [hasRoom, h]

/-- R23 to R25: what one byte that emits no event does to the accumulator's registers. -/
structure Grows (c : Config) (r r' : SdRegs) : Prop where
  len_le : r.len ≤ r'.len
  len_le_succ : r'.len ≤ r.len + 1
  reads : ∀ a, a < r.len → Memory.read r'.acc a = Memory.read r.acc a
  ovf_stays : r.ovf = true → r'.ovf = true
  ovf_set : r.ovf = false → r'.ovf = true → r'.len = r.len ∧ ∃ cap, c.accCap = some cap ∧ cap ≤ r.len

theorem grows_refl (c : Config) (r : SdRegs) : Grows c r r where
  len_le := Nat.le_refl _
  len_le_succ := Nat.le_succ _
  reads _ _ := rfl
  ovf_stays h := h
  ovf_set h h' := by simp [h] at h'

/-- R165: an append, with room and without. -/
theorem sdAppend_grows (c : Config) (r : SdRegs) (v : Byte) : Grows c r (sdAppend c r v) := by
  rcases sdAppend_cases c r v with ⟨-, e⟩ | ⟨hfull, e⟩ <;> rw [e]
  · exact { grows_refl c r with
      len_le := Nat.le_succ _
      len_le_succ := Nat.le_refl _
      reads := fun a ha => Memory.read_write_other _ _ (Nat.ne_of_lt ha)
      ovf_set := fun h h' => by simp [h] at h' }
  · exact { grows_refl c r with
      ovf_stays := fun _ => rfl
      ovf_set := fun _ _ => ⟨rfl, hasRoom_eq_false_iff.1 hfull⟩ }

/-- R161, R163: a data byte and an overhead byte do no more to the accumulator than an append. -/
theorem dataByte_grows (c : Config) (r : SdRegs) (b : Byte) : Grows c r (dataByte c r b) :=
  { sdAppend_grows c r b with }

theorem overheadByte_grows (c : Config) (r : SdRegs) (b : Byte) : Grows c r (overheadByte c r b) := by
  have h : Grows c r (if r.ovh ≠ sentinel then sdAppend c r 0x00#8 else r) := by
    split
    · exact sdAppend_grows c r 0x00#8
    · exact grows_refl c r
  exact { h with }

/-- R24, R25: a byte lets the accumulator grow without an event, or resets the decoder with one. -/
theorem sdStep_grows_or_resets {c : Config} {r r' : SdRegs} {b : Byte} {e : Option Event}
    (h : sdStep c r b = some (r', e)) : (e = none ∧ Grows c r r') ∨ (e.isSome = true ∧ r' = SdRegs.reset) := by
  rcases sdStep_cases h with ⟨-, -, rfl, rfl⟩ | ⟨-, -, rfl, rfl⟩ | ⟨-, -, rfl, rfl⟩ | ⟨-, -, rfl, p, -, rfl⟩
  · exact .inl ⟨rfl, dataByte_grows c r b⟩
  · exact .inl ⟨rfl, overheadByte_grows c r b⟩
  · exact .inl ⟨rfl, grows_refl c _⟩
  · exact .inr ⟨rfl, rfl⟩

/-- Settles O37: each clause holds of a growth and of a reset. -/
theorem cursorAndOverflowUntilReset : Obligations.CursorAndOverflowUntilReset := by
  intro c r r' b e h
  rcases sdStep_grows_or_resets h with ⟨-, hg⟩ | ⟨-, rfl⟩
  · refine ⟨hg.len_le_succ, fun hlt => absurd hg.len_le (Nat.not_le.2 hlt), fun ho ho' => ?_, hg.ovf_set, fun hc ho => ?_⟩
    · simp [hg.ovf_stays ho] at ho'
    · by_contra ho'
      obtain ⟨-, cap, hcap, -⟩ := hg.ovf_set ho (by simpa using ho')
      simp [hc] at hcap
  · exact ⟨Nat.zero_le _, fun _ => rfl, fun _ _ => rfl, fun _ h => (nomatch h), fun _ _ => rfl⟩

/-- A run answers exactly when its first byte does and the others do from there; the events are in byte
order. -/
theorem sdRun_cons {c : Config} {r r' : SdRegs} {b : Byte} {d : Bytes} {es : List Event} :
    sdRun c r (b :: d) = some (r', es) ↔
      ∃ r₁ e es₁, sdStep c r b = some (r₁, e) ∧ sdRun c r₁ d = some (r', es₁) ∧ es = e.toList ++ es₁ := by
  cases hstep : sdStep c r b with
  | none => simp [sdRun, hstep]
  | some x =>
    obtain ⟨r₁, e⟩ := x
    cases hrun : sdRun c r₁ d <;> simp [sdRun, hstep, hrun, Prod.ext_iff, eq_comm, and_assoc]

/-- R23, R24: a run without an event keeps every stored byte. -/
theorem sdRun_keeps_stored {c : Config} {r r' : SdRegs} {d : Bytes} (h : sdRun c r d = some (r', [])) :
    r.len ≤ r'.len ∧ ∀ a, a < r.len → Memory.read r'.acc a = Memory.read r.acc a := by
  induction d generalizing r with
  | nil =>
    obtain rfl : r = r' := by simpa [sdRun] using h
    exact ⟨Nat.le_refl _, fun _ _ => rfl⟩
  | cons b d ih =>
    obtain ⟨r₁, e, es, hstep, hrun, hes⟩ := sdRun_cons.1 h
    obtain ⟨he, rfl⟩ := List.append_eq_nil_iff.1 hes.symm
    obtain ⟨hlen, hreads⟩ := ih hrun
    rcases sdStep_grows_or_resets hstep with ⟨-, hg⟩ | ⟨hsome, -⟩
    · exact ⟨hg.len_le.trans hlen, fun a ha => (hreads a (ha.trans_le hg.len_le)).trans (hg.reads a ha)⟩
    · simp [Option.toList_eq_nil_iff.1 he] at hsome

/-- Settles O41: a refused FEED changes no register, and the run of any other has emitted nothing. -/
theorem feedWithoutEventKeepsStoredBytes : Obligations.FeedWithoutEventKeepsStoredBytes := by
  intro s t d h hev
  cases exec_eq_next_iff.1 h with
  | refused _ => exact ⟨Nat.le_refl _, fun _ _ => rfl, rfl, rfl, rfl, rfl⟩
  | @feed _ r es _ hr =>
    obtain rfl : es = [] := by
      rw [events_of_outPort (s := s) rfl] at hev
      simpa using hev
    obtain ⟨hlen, hreads⟩ := sdRun_keeps_stored hr
    exact ⟨hlen, hreads, rfl, rfl, rfl, rfl⟩

end Sys2Proof.Machine
end

section
/-! PROOF. `IDLE` (spec 10_state.md R27). -/

namespace Sys2Proof.Machine

/-- R27: `IDLE` is its predicate. -/
theorem idle_iff {r : SdRegs} : idle r = true ↔ r.cpy = 0x00#8 ∧ r.ovh = 0xFF#8 ∧ r.len = 0 ∧ r.ovf = false := by
  simp [idle, sentinel, and_assoc]

/-- A storage in which every position reads `⊥` lists none. -/
theorem Memory.eq_nil_of_read {m : Memory} (h : ∀ a, Memory.read m a = none) : m = [] := by
  cases m with
  | nil => rfl
  | cons x m => simpa [Memory.read] using h x.1

/-- R27, R29: of good registers only the reset values are idle. -/
theorem SdInv.idle_iff_reset {c : Config} {r : SdRegs} (h : SdInv c r) : idle r = true ↔ r = SdRegs.reset := by
  refine ⟨fun hi => ?_, fun hr => by subst hr; rfl⟩
  obtain ⟨ovh, cpy, acc, len, ovf⟩ := r
  obtain ⟨rfl, rfl, rfl, rfl⟩ := idle_iff.1 hi
  obtain rfl : acc = [] := Memory.eq_nil_of_read fun a => by simpa using h.acc_holds a
  rfl

/-- R27: a 0x00 leaves idle registers as they are, silently. -/
theorem sdStep_zero_of_idle {c : Config} {r : SdRegs} (h : idle r = true) : sdStep c r 0x00#8 = some (r, none) := by
  simp [sdStep, delimiter, h, (idle_iff.1 h).1]

/-- R161: after a data byte the accumulator holds a byte or has overflowed. -/
theorem idle_dataByte (c : Config) (r : SdRegs) (b : Byte) : idle (dataByte c r b) = false := by
  rcases sdAppend_cases c r b with ⟨-, e⟩ | ⟨-, e⟩ <;> simp [idle, dataByte, e]

/-- R163: an overhead byte that is the sentinel leaves 254 data bytes to come. -/
theorem idle_overheadByte (c : Config) (r : SdRegs) (b : Byte) : idle (overheadByte c r b) = false := by
  by_cases hb : b = sentinel <;> simp [idle, overheadByte, hb, sentinel]

/-- R162, R164: the event of a delimiter that ends the frame in flight, with its payload. -/
def frameEvent (r : SdRegs) (p : Bytes) : Event :=
  if r.cpy ≠ 0x00#8 then .ferr (dibCause r) p else if r.ovf then .ferr causeOvf p else .frame p

/-- R162, R164: a delimiter that answers when the decoder is not idle resets it with its event. -/
theorem sdStep_zero_of_not_idle {c : Config} {r r' : SdRegs} {e : Option Event} (hi : idle r = false)
    (h : sdStep c r 0x00#8 = some (r', e)) :
    r' = SdRegs.reset ∧ ∃ p, sdSnapshot r = some p ∧ e = some (frameEvent r p) := by
  rcases sdStep_cases h with ⟨hb, -⟩ | ⟨hb, -⟩ | ⟨-, hi', -⟩ | ⟨-, -, hr, hp⟩
  · exact absurd rfl hb
  · exact absurd rfl hb
  · simp [hi] at hi'
  · exact ⟨hr, hp⟩

/-- Settles O38: one lemma for each kind of byte. -/
theorem idleExactlyAtReset : Obligations.IdleExactlyAtReset := by
  refine ⟨fun _ => idle_iff, fun _ _ h => h.idle_iff_reset, fun _ _ h => sdStep_zero_of_idle h, ?_, ?_⟩
  · intro c r r' b e h hb
    rcases sdStep_cases h with ⟨-, -, rfl, rfl⟩ | ⟨-, -, rfl, rfl⟩ | ⟨h0, -⟩ | ⟨h0, -⟩
    · exact ⟨idle_dataByte c r b, rfl⟩
    · exact ⟨idle_overheadByte c r b, rfl⟩
    · exact absurd h0 hb
    · exact absurd h0 hb
  · intro c r r' e h hi
    obtain ⟨hr, p, -, rfl⟩ := sdStep_zero_of_not_idle hi h
    exact ⟨hr, rfl⟩

end Sys2Proof.Machine
end

section
/-! PROOF. DEC's flags and its count (spec 10_state.md R33, 41_block_decoder.md R134, 60_exceptions.md R206). -/

namespace Sys2Proof.Machine

/-- A flag bit after setting a mask's bits. -/
@[simp] theorem setFlag_getElem (flags mask : Byte) (k : Nat) (h : k < 8) :
    (setFlag flags mask)[k] = (flags[k] || mask[k]) :=
  BitVec.getElem_or ..

/-- R33: setting a flag of DEC leaves the reserved bits 7:4 at 0. -/
theorem setFlag_reserved {flags mask : Byte} (h : flags &&& 0xF0#8 = 0x00#8) (hm : mask &&& 0xF0#8 = 0x00#8) :
    setFlag flags mask &&& 0xF0#8 = 0x00#8 := by
  rw [setFlag, BitVec.and_or_distrib_right, h, hm, BitVec.or_self]

/-- What the scan's flags are until it ends: no reserved bit, neither `MALF` nor `TRUNC`, and `EMPTY` or
not. -/
structure Scanning (empty : Bool) (flags : Byte) : Prop where
  reserved : flags &&& 0xF0#8 = 0x00#8
  malf : flags[0] = false
  trunc : flags[1] = false
  empty : flags[3] = empty

/-- What the scan of the bytes `f` ends with, where `n` bytes stand before them and `count` is the cursor at the
end. -/
structure Scanned (empty : Bool) (n : Nat) (f : Bytes) (flags : Byte) (count : Nat) : Prop where
  reserved : flags &&& 0xF0#8 = 0x00#8
  empty : flags[3] = empty
  cursor : ∃ k ≤ f.length, count = n + k ∧ (k < f.length ↔ flags[0] = true) ∧
    (flags[0] = true → f[k]? = some 0x00#8)
  not_trunc : flags[0] = true → flags[1] = false

/-- R130: a byte that the scan consumes moves the cursor on. -/
theorem Scanned.cons {empty : Bool} {n : Nat} {f : Bytes} {flags : Byte} {count : Nat}
    (h : Scanned empty (n + 1) f flags count) (b : Byte) : Scanned empty n (b :: f) flags count := by
  obtain ⟨k, hk, hcount, hmalf, hzero⟩ := h.cursor
  exact { h with cursor := ⟨k + 1, by simpa using hk, by omega, by simpa using hmalf, by simpa using hzero⟩ }

/-- R135: the end of the input sets at most `TRUNC`. -/
theorem decEnd_scanned {empty : Bool} {r : DecRegs} (h : Scanning empty r.flags) :
    Scanned empty r.i [] (decEnd r).flags (decEnd r).i := by
  obtain ⟨hres, hmalf, -, hempty⟩ := h
  unfold decEnd
  split
  · exact ⟨setFlag_reserved hres rfl, by simp [hempty, flagTrunc], ⟨0, by simp [hmalf, flagTrunc]⟩,
      by simp [hmalf, flagTrunc]⟩
  · exact ⟨hres, hempty, ⟨0, by simp [hmalf]⟩, by simp [hmalf]⟩

/-- R131: a 0x00 at an overhead position sets `MALF` and leaves the cursor on it. -/
theorem decMalformed_scanned {empty : Bool} {r : DecRegs} (h : Scanning empty r.flags) (f : Bytes) :
    Scanned empty r.i (0x00#8 :: f) (decMalformed r).flags (decMalformed r).i := by
  obtain ⟨hres, -, htrunc, hempty⟩ := h
  exact ⟨setFlag_reserved hres rfl, by simpa [decMalformed, flagMalf] using hempty,
    ⟨0, by simp [decMalformed, flagMalf]⟩, by simp [decMalformed, htrunc, flagMalf]⟩

/-- R132: a data byte sets at most `ZDATA`. -/
theorem decData_scanning {empty : Bool} {r : DecRegs} (h : Scanning empty r.flags) (b : Byte) :
    Scanning empty (decData r b).flags := by
  show Scanning empty (if b = 0x00#8 then setFlag r.flags flagZdata else r.flags)
  split
  · exact ⟨setFlag_reserved h.reserved rfl, by simp [h.malf, flagZdata], by simp [h.trunc, flagZdata],
      by simp [h.empty, flagZdata]⟩
  · exact h

/-- R130: the whole scan. -/
theorem decLoop_scanned {empty : Bool} (f : Bytes) (r : DecRegs) (h : Scanning empty r.flags) :
    Scanned empty r.i f (decLoop f r).flags (decLoop f r).i := by
  induction f generalizing r with
  | nil => exact decEnd_scanned h
  | cons b f ih =>
    rw [decLoop]
    split
    · exact (ih (decData r b) (decData_scanning h b)).cons b
    · split
      · next hb =>
        subst hb
        exact decMalformed_scanned (r := decOverhead r 0x00#8) h f
      · exact (ih (decBlockOpened (decOverhead r b)) h).cons b

/-- R33: at the start only `EMPTY` may be set. -/
theorem decInit_scanning (f : Bytes) : Scanning (decide (f = [])) (decInit f).flags := by
  cases f <;> constructor <;> simp [decInit, setFlag, flagEmpty]

/-- R33, R134, R206: the flags and the count of DEC's response. -/
theorem decOf_scanned (f : Bytes) : Scanned (decide (f = [])) 0 f (decOf f).flags (decOf f).count :=
  decLoop_scanned f (decInit f) (decInit_scanning f)

/-- Settles O25: what the scan ends with, and an empty frame has no byte to be malformed. -/
theorem decFlagsAndCount : Obligations.DecFlagsAndCount := by
  intro s f ha
  obtain ⟨hres, hempty, ⟨k, hk, hcount, hmalf, hzero⟩, htrunc⟩ := decOf_scanned f
  obtain rfl : (decOf f).count = k := by simpa using hcount
  refine ⟨_, decOf f, execDec_of_admitted ha, rfl, rfl, hres, hk, hmalf, hzero, by simp [hempty],
    fun hm => ⟨htrunc hm, ?_⟩⟩
  have hf : f ≠ [] := List.ne_nil_of_length_pos (Nat.zero_lt_of_lt (hmalf.2 hm))
  simpa [hf] using hempty

end Sys2Proof.Machine
end

section
/-! PROOF. No command produces a reserved code or a reserved bit (spec 10_state.md R32 to R34, 30_encoding.md
R63, 60_exceptions.md R203). -/

namespace Sys2Proof.Machine

/-- R63, R68: the status codes of a refusal. -/
theorem admission_codes {f : CmdFormat} {c : Config} {d : Bytes} {code : Byte} (h : admission f c d = some code) :
    code = statusIllegalOpcode ∨ code = statusIllegalOperand ∨ code = statusOperandTooLong := by
  cases f with
  | cmdD =>
    rw [admission_cmdD] at h
    split at h
    · exact .inr (.inr (Option.some.inj h).symm)
    · cases h
  | cmdN =>
    rw [admission_cmdN] at h
    split at h
    · cases h
    · exact .inr (.inl (Option.some.inj h).symm)
  | cmdAny => exact .inl (Option.some.inj h).symm

/-- R34: the stream flags use bits 1:0. -/
theorem streamFlags_reserved (r : SdRegs) : streamFlags r &&& 0xFC#8 = 0x00#8 := by
  cases hi : inflight r <;> cases ho : r.ovf <;> simp [streamFlags, hi, ho, bit]

/-- R203: a frame error's cause has bits 7:2 at 0 and one of bits 1:0 set. -/
def causeLegal : Event → Prop
  | .frame _ => True
  | .ferr cause _ => cause &&& 0xFC#8 = 0x00#8 ∧ cause ≠ 0x00#8

/-- R162, R164: the event of a delimiter has a legal cause. -/
theorem causeLegal_frameEvent (r : SdRegs) (p : Bytes) : causeLegal (frameEvent r p) := by
  by_cases hc : r.cpy = 0x00#8 <;> cases ho : r.ovf <;>
    simp [frameEvent, hc, ho, causeLegal, dibCause, causeDib, causeOvf]

/-- R160, R203: the event of a byte has a legal cause. -/
theorem sdStep_causeLegal {c : Config} {r r' : SdRegs} {b : Byte} {e : Event}
    (h : sdStep c r b = some (r', some e)) : causeLegal e := by
  rcases sdStep_cases h with ⟨-, -, -, he⟩ | ⟨-, -, -, he⟩ | ⟨-, -, -, he⟩ | ⟨-, -, -, p, -, he⟩
  · cases he
  · cases he
  · cases he
  · rw [Option.some.inj he]
    exact causeLegal_frameEvent r p

/-- R170, R203: every event of a run has a legal cause. -/
theorem sdRun_causeLegal {c : Config} {r r' : SdRegs} {d : Bytes} {es : List Event}
    (h : sdRun c r d = some (r', es)) : ∀ e ∈ es, causeLegal e := by
  induction d generalizing r es with
  | nil =>
    obtain ⟨-, rfl⟩ : r = r' ∧ es = [] := by simpa [sdRun, eq_comm] using h
    simp
  | cons b d ih =>
    obtain ⟨r₁, e, es₁, hstep, hrun, rfl⟩ := sdRun_cons.1 h
    intro x hx
    rcases List.mem_append.1 hx with hx | hx
    · obtain rfl : e = some x := by simpa using hx
      exact sdStep_causeLegal hstep
    · exact ih hrun x hx

/-- R62, R63: the response of command `i` holds no reserved code and no reserved bit. -/
structure ResponseLegal (i : Instr) (r : Response) : Prop where
  status : r.status.toNat ≤ 3
  error : r.status ≠ 0x00#8 → r.data = [] ∧ r.count = 0 ∧ r.flags = 0x00#8
  flags : r.flags &&& 0xF0#8 = 0x00#8
  low_flags : (∀ d, i ≠ .dec d) → r.flags &&& 0xFC#8 = 0x00#8
  no_flags : (∀ d, i ≠ .dec d) → (∀ d, i ≠ .sreset d) → (∀ d, i ≠ .sstat d) → r.flags = 0x00#8

/-- R32: a command that ran and has no flags to give responds legally. -/
theorem responseLegal_ok {i : Instr} {r : Response} (hs : r.status = 0x00#8) (hf : r.flags = 0x00#8) :
    ResponseLegal i r where
  status := by simp [hs]
  error h := absurd hs h
  flags := by simp [hf]
  low_flags _ := by simp [hf]
  no_flags _ _ _ := hf

/-- R63 to R66: a refusal's response is legal. -/
theorem responseLegal_refusal {i : Instr} {c : Config} {code : Byte}
    (h : admission i.format c i.operand = some code) : ResponseLegal i (errorResponse code) where
  status := by rcases admission_codes h with rfl | rfl | rfl <;> decide
  error _ := ⟨rfl, rfl, rfl⟩
  flags := by simp [errorResponse, noFlags]
  low_flags _ := by simp [errorResponse, noFlags]
  no_flags _ _ _ := rfl

/-- R181, R185: a response that carries the stream flags is legal for SRESET and SSTAT. -/
theorem responseLegal_stream {i : Instr} {r : Response} {q : SdRegs} (hi : (∃ d, i = .sreset d) ∨ ∃ d, i = .sstat d)
    (hs : r.status = 0x00#8) (hf : r.flags = streamFlags q) : ResponseLegal i r where
  status := by simp [hs]
  error h := absurd hs h
  flags := by
    have hmask : (0xFC#8 &&& 0xF0#8 : Byte) = 0xF0#8 := rfl
    rw [hf, ← hmask, ← BitVec.and_assoc, streamFlags_reserved, BitVec.zero_and]
  low_flags _ := hf ▸ streamFlags_reserved q
  no_flags _ hr ht := by
    rcases hi with ⟨d, rfl⟩ | ⟨d, rfl⟩
    · exact absurd rfl (hr d)
    · exact absurd rfl (ht d)

/-- R33: DEC's response is legal. -/
theorem responseLegal_dec (d f : Bytes) : ResponseLegal (.dec d) (decOf f) where
  status := by simp [decOf, decResponse, statusOk]
  error h := absurd rfl h
  flags := (decOf_scanned f).reserved
  low_flags h := absurd rfl (h d)
  no_flags h := absurd rfl (h d)

/-- R63, R203: what a command puts on the ports is legal. -/
theorem Answers.legal {s t : State} {i : Instr} (h : Answers s i t) :
    ∃ (es : List Event) (r : Response), t.outPort = s.outPort ++ es.map .event ++ [.response r] ∧
      ResponseLegal i r ∧ ∀ e ∈ es, causeLegal e := by
  cases h with
  | refused h => exact ⟨[], errorResponse _, by simp, responseLegal_refusal h, by simp⟩
  | @enc _ f _ _ => exact ⟨[], encResponse f, by simp, responseLegal_ok rfl rfl, by simp⟩
  | @dec d _ => exact ⟨[], decOf d, by simp, responseLegal_dec d d, by simp⟩
  | feed _ hr => exact ⟨_, feedResponse _, rfl, responseLegal_ok rfl rfl, sdRun_causeLegal hr⟩
  | sreset => exact ⟨[], sresetResponse s.sd, by simp, responseLegal_stream (.inl ⟨_, rfl⟩) rfl rfl, by simp⟩
  | sstat => exact ⟨[], sstatResponse s.sd, by simp, responseLegal_stream (.inr ⟨_, rfl⟩) rfl rfl, by simp⟩

/-- Settles O50: the clauses are what a legal response and a legal cause are. -/
theorem noReservedCodeIsProduced : Obligations.NoReservedCodeIsProduced := by
  intro s t i h
  obtain ⟨es, r, hout, ⟨hstatus, herror, hflags, hstream, hnone⟩, hcause⟩ := (exec_eq_next_iff.1 h).legal
  exact ⟨es, r, hout, hstatus, herror, hflags, hstream, hnone, fun _ _ hmem => hcause _ hmem⟩

end Sys2Proof.Machine
end

section
/-! PROOF. The contents of `SD.ACC` reach nothing but `SD.ACC` itself and the payload bytes of an event (spec
10_state.md R37). -/

namespace Sys2Proof.Machine

/-- A slice is as long as asked. -/
theorem Memory.slice_length {m : Memory} {a n : Nat} {p : Bytes} (h : Memory.slice m a n = some p) : p.length = n := by
  induction n generalizing a p with
  | zero => cases h; rfl
  | succ n ih =>
    cases hb : Memory.read m a with
    | none => simp [Memory.slice, hb] at h
    | some b =>
      obtain ⟨q, hq, rfl⟩ : ∃ q, Memory.slice m (a + 1) n = some q ∧ b :: q = p := by
        simpa [Memory.slice, hb] using h
      simp [ih hq]

/-- R37: two registers that agree in everything but the contents of `SD.ACC`. -/
def SameButAcc (r r' : SdRegs) : Prop := ∃ m, r' = { r with acc := m }

theorem sameButAcc_refl (r : SdRegs) : SameButAcc r r := ⟨r.acc, rfl⟩

theorem SameButAcc.ovh_eq {r r' : SdRegs} (h : SameButAcc r r') : r'.ovh = r.ovh := by
  obtain ⟨m, rfl⟩ := h
  rfl

theorem SameButAcc.cpy_eq {r r' : SdRegs} (h : SameButAcc r r') : r'.cpy = r.cpy := by
  obtain ⟨m, rfl⟩ := h
  rfl

theorem SameButAcc.len_eq {r r' : SdRegs} (h : SameButAcc r r') : r'.len = r.len := by
  obtain ⟨m, rfl⟩ := h
  rfl

/-- R28: whether a frame is in flight is seen without `SD.ACC`. -/
theorem SameButAcc.idle_eq {r r' : SdRegs} (h : SameButAcc r r') : idle r' = idle r := by
  obtain ⟨m, rfl⟩ := h
  rfl

/-- R165: whether an append has room is seen from the cursor. -/
theorem SameButAcc.append {r r' : SdRegs} (h : SameButAcc r r') (c : Config) (v : Byte) :
    SameButAcc (sdAppend c r v) (sdAppend c r' v) := by
  obtain ⟨m, rfl⟩ := h
  unfold SameButAcc sdAppend
  cases hasRoom c r.len
  · exact ⟨m, rfl⟩
  · exact ⟨Memory.write m r.len v, rfl⟩

theorem SameButAcc.withBlock {r r' : SdRegs} (h : SameButAcc r r') (ovh cpy : Byte) :
    SameButAcc { r with ovh := ovh, cpy := cpy } { r' with ovh := ovh, cpy := cpy } := by
  obtain ⟨m, rfl⟩ := h
  exact ⟨m, rfl⟩

theorem SameButAcc.dataByte {r r' : SdRegs} (h : SameButAcc r r') (c : Config) (b : Byte) :
    SameButAcc (dataByte c r b) (dataByte c r' b) := by
  obtain ⟨m, hm⟩ := h.append c b
  simp only [Machine.dataByte, hm]
  exact ⟨m, rfl⟩

theorem SameButAcc.overheadByte {r r' : SdRegs} (h : SameButAcc r r') (c : Config) (b : Byte) :
    SameButAcc (overheadByte c r b) (overheadByte c r' b) := by
  have hz : SameButAcc (if r.ovh ≠ sentinel then sdAppend c r 0x00#8 else r)
      (if r'.ovh ≠ sentinel then sdAppend c r' 0x00#8 else r') := by
    rw [h.ovh_eq]
    split
    · exact h.append c 0x00#8
    · exact h
  exact hz.withBlock b (b - 1#8)

/-- R37: of an event's payload only the length is seen. -/
theorem SameButAcc.frameEvent {r r' : SdRegs} (h : SameButAcc r r') {p p' : Bytes} (hl : p.length = p'.length) :
    hidePayload (.event (frameEvent r p)) = hidePayload (.event (frameEvent r' p')) := by
  obtain ⟨m, rfl⟩ := h
  by_cases hc : r.cpy = 0x00#8 <;> cases ho : r.ovf <;>
    simp [Machine.frameEvent, hc, ho, hidePayload, dibCause, hl]

/-- R37, R160: a byte's effect on everything but `SD.ACC`, and its event but for the payload's bytes, do not
depend on the contents of `SD.ACC`. -/
theorem SameButAcc.sdStep {c : Config} {r r' q q' : SdRegs} {b : Byte} {e e' : Option Event} (h : SameButAcc r r')
    (hs : sdStep c r b = some (q, e)) (hs' : sdStep c r' b = some (q', e')) :
    SameButAcc q q' ∧ e.toList.map (hidePayload ∘ .event) = e'.toList.map (hidePayload ∘ .event) := by
  rcases sdStep_cases hs with ⟨hb, hc, rfl, rfl⟩ | ⟨hb, hc, rfl, rfl⟩ | ⟨rfl, hi, rfl, rfl⟩ | ⟨rfl, hi, -⟩
  · obtain ⟨rfl, rfl⟩ : Machine.dataByte c r' b = q' ∧ none = e' := by simpa [Machine.sdStep, h.cpy_eq, hc, hb] using hs'
    exact ⟨h.dataByte c b, rfl⟩
  · obtain ⟨rfl, rfl⟩ : Machine.overheadByte c r' b = q' ∧ none = e' := by
      simpa [Machine.sdStep, h.cpy_eq, hc, hb] using hs'
    exact ⟨h.overheadByte c b, rfl⟩
  · obtain ⟨rfl, rfl⟩ : r' = q' ∧ none = e' := by simpa [sdStep_zero_of_idle (h.idle_eq.trans hi)] using hs'
    exact ⟨h, rfl⟩
  · obtain ⟨rfl, p, hp, rfl⟩ := sdStep_zero_of_not_idle hi hs
    obtain ⟨rfl, p', hp', rfl⟩ := sdStep_zero_of_not_idle (h.idle_eq.trans hi) hs'
    have hl : p.length = p'.length := by
      rw [Memory.slice_length hp, Memory.slice_length hp', h.len_eq]
    exact ⟨sameButAcc_refl _, by simp [h.frameEvent hl]⟩

/-- R37, R170: so too for a run over a chunk. -/
theorem SameButAcc.sdRun {c : Config} {r r' q q' : SdRegs} {d : Bytes} {es es' : List Event} (h : SameButAcc r r')
    (hs : sdRun c r d = some (q, es)) (hs' : sdRun c r' d = some (q', es')) :
    SameButAcc q q' ∧ es.map (hidePayload ∘ .event) = es'.map (hidePayload ∘ .event) := by
  induction d generalizing r r' es es' with
  | nil =>
    obtain ⟨rfl, rfl⟩ : r = q ∧ [] = es := by simpa [Machine.sdRun] using hs
    obtain ⟨rfl, rfl⟩ : r' = q' ∧ [] = es' := by simpa [Machine.sdRun] using hs'
    exact ⟨h, rfl⟩
  | cons b d ih =>
    obtain ⟨r₁, e, es₁, hstep, hrun, rfl⟩ := sdRun_cons.1 hs
    obtain ⟨r₁', e', es₁', hstep', hrun', rfl⟩ := sdRun_cons.1 hs'
    obtain ⟨h₁, he⟩ := h.sdStep hstep hstep'
    obtain ⟨hq, hes⟩ := ih h₁ hrun hrun'
    exact ⟨hq, by rw [List.map_append, List.map_append, he, hes]⟩

/-- A command answers one state. -/
theorem Answers.unique {s t t' : State} {i : Instr} (h : Answers s i t) (h' : Answers s i t') : t = t' :=
  Host.Outcome.next.inj ((exec_eq_next_iff.2 h).symm.trans (exec_eq_next_iff.2 h'))

/-- R37: the state with other contents of `SD.ACC`. -/
def State.withAcc (s : State) (m : Memory) : State := { s with sd := { s.sd with acc := m } }

/-- R37, R46: outside FEED other contents of `SD.ACC` make a difference to `SD.ACC` alone. -/
theorem Answers.withAcc {s t t' : State} {i : Instr} {m : Memory} (hi : ∀ d, i ≠ .feed d) (h : Answers s i t)
    (h' : Answers (s.withAcc m) i t') : ∃ m', t' = t.withAcc m' := by
  cases h with
  | refused ha => exact ⟨m, h'.unique (.refused ha)⟩
  | enc ha hf => exact ⟨m, h'.unique (.enc ha hf)⟩
  | dec ha => exact ⟨m, h'.unique (.dec ha)⟩
  | feed ha hr => exact absurd rfl (hi _)
  | sreset => exact ⟨[], h'.unique .sreset⟩
  | sstat => exact ⟨m, h'.unique .sstat⟩

/-- R37, R170: a FEED with other contents of `SD.ACC` answers with the same registers but `SD.ACC`, and with
the same outputs but for the payloads' bytes. -/
theorem Answers.feed_withAcc {s t t' : State} {d : Bytes} {m : Memory} (h : Answers s (.feed d) t)
    (h' : Answers (s.withAcc m) (.feed d) t') :
    ∃ (m' : Memory) (os os' : List Output) (r : Response), os.map hidePayload = os'.map hidePayload ∧
      t.outPort = s.outPort ++ os ++ [.response r] ∧ t'.outPort = s.outPort ++ os' ++ [.response r] ∧
      t' = { t.withAcc m' with outPort := t'.outPort } := by
  cases h with
  | refused ha =>
    obtain rfl := h'.unique (.refused ha)
    exact ⟨m, [], [], _, rfl, by simp; rfl, by simp; rfl, rfl⟩
  | @feed _ q es ha hr =>
    cases h' with
    | refused ha' => simp [Instr.format, Instr.operand, admission_cmdD, State.withAcc, ha] at ha'
    | @feed _ q' es' _ hr' =>
      obtain ⟨⟨m', rfl⟩, hes⟩ := SameButAcc.sdRun ⟨m, rfl⟩ hr hr'
      have hlen : es.length = es'.length := by simpa using congrArg List.length hes
      exact ⟨m', es.map .event, es'.map .event, _, by simpa using hes, rfl, by rw [hlen]; rfl, rfl⟩

/-- Settles O53: only a FEED can show a difference, and there in the payloads' bytes alone. -/
theorem accumulatorContentsHidden : Obligations.AccumulatorContentsHidden := by
  intro s t t' m i h h'
  have ha := exec_eq_next_iff.1 h
  have ha' : Answers (s.withAcc m) i t' := exec_eq_next_iff.1 h'
  by_cases hi : ∃ d, i = .feed d
  · obtain ⟨d, rfl⟩ := hi
    obtain ⟨m', os, os', r, hos, hout, hout', ht⟩ := ha.feed_withAcc ha'
    have hlen : os.length = os'.length := by simpa using congrArg List.length hos
    refine ⟨by simp [hout, hout'], by simp [hout, hout', hlen], by simp [hout, hout', hos], ?_, fun hd => absurd rfl (hd d)⟩
    rw [ht]
    rfl
  · obtain ⟨m', rfl⟩ := ha.withAcc (fun d hd => hi ⟨d, hd⟩) ha'
    exact ⟨rfl, rfl, rfl, rfl, fun _ => rfl⟩

end Sys2Proof.Machine
end

section
/-! PROOF. The side effects of a command: its events before its one response (spec 20_memory.md R49, R50), and
what a second issue of the same command does (R46). -/

namespace Sys2Proof.Machine

/-- R46, R170: a command other than FEED puts one response on the ports and no event. -/
theorem Answers.outPort_of_not_feed {s t : State} {i : Instr} (h : Answers s i t) (hi : ∀ d, i ≠ .feed d) :
    ∃ r, t.outPort = s.outPort ++ [.response r] := by
  cases h with
  | feed _ _ => exact absurd rfl (hi _)
  | refused _ => exact ⟨_, rfl⟩
  | enc _ _ => exact ⟨_, rfl⟩
  | dec _ => exact ⟨_, rfl⟩
  | sreset => exact ⟨_, rfl⟩
  | sstat => exact ⟨_, rfl⟩

/-- R46: only FEED and SRESET write the StreamingDecoder's registers. -/
theorem Answers.keeps_sd {s t : State} {i : Instr} (h : Answers s i t) (hfeed : ∀ d, i ≠ .feed d)
    (hsreset : ∀ d, i ≠ .sreset d) : t.sd = s.sd := by
  cases h with
  | feed _ _ => exact absurd rfl (hfeed _)
  | sreset => exact absurd rfl (hsreset _)
  | refused _ => rfl
  | enc _ _ => rfl
  | dec _ => rfl
  | sstat => rfl

/-- R46: a command other than FEED and SRESET, issued again, only gives its response again: what it reads, the
parameters and the StreamingDecoder's registers, stands. -/
theorem Answers.again {s t : State} {i : Instr} (h : Answers s i t) (hfeed : ∀ d, i ≠ .feed d)
    (hsreset : ∀ d, i ≠ .sreset d) :
    ∃ r, t.outPort = s.outPort ++ [.response r] ∧ Answers t i (respond r t) := by
  cases h with
  | feed _ _ => exact absurd rfl (hfeed _)
  | sreset => exact absurd rfl (hsreset _)
  | refused ha => exact ⟨_, rfl, .refused (s := raiseError _ s) ha⟩
  | enc ha hf => exact ⟨_, rfl, .enc (s := respond _ { s with enc := none }) ha hf⟩
  | dec ha => exact ⟨_, rfl, .dec (s := respond _ { s with dec := none }) ha⟩
  | sstat => exact ⟨_, rfl, .sstat⟩

/-- R29, R181: the reset values have no bytes to discard and no stream flag set. -/
theorem sresetResponse_reset : sresetResponse SdRegs.reset = ⟨0x00#8, [], 0, 0x00#8⟩ := by decide

/-- R46, R181: after an SRESET another finds the reset values, keeps them and reports nothing discarded. -/
theorem sreset_again {s t u : State} (ht : Answers s (.sreset []) t) (hu : Answers t (.sreset []) u) :
    u.sd = t.sd ∧ u.outPort = t.outPort ++ [.response ⟨0x00#8, [], 0, 0x00#8⟩] := by
  obtain rfl := ht.unique .sreset
  obtain rfl := hu.unique .sreset
  exact ⟨rfl, by simp [sresetResponse_reset]⟩

/-- Settles O12: a command that is no FEED adds one item to the ports, so its events are none. -/
theorem eachCommandAnswersOnceAfterItsEvents : Obligations.EachCommandAnswersOnceAfterItsEvents := by
  intro s t i h
  have ha := exec_eq_next_iff.1 h
  obtain ⟨es, r, hout, hport, hconfig⟩ := ha.ports
  refine ⟨⟨es, r, hout, fun hi => ?_⟩, hport, hconfig, ha.keeps_sd⟩
  obtain ⟨r', hout'⟩ := ha.outPort_of_not_feed hi
  simpa using congrArg List.length (hout.symm.trans hout')

/-- Settles O49. FEED is not idempotent: of a delimiter and the one byte of an empty payload's frame, the first
FEED ignores the delimiter and leaves the frame in flight, and the second FEED's delimiter ends it. -/
theorem sideEffectsOfCommands : Obligations.SideEffectsOfCommands := by
  refine ⟨fun s t u i hi ht hu => ?_, fun s t u ht hu => ?_, ?_⟩
  · have hfeed : ∀ d, i ≠ .feed d := by rcases hi with ⟨d, rfl⟩ | ⟨d, rfl⟩ | rfl <;> simp
    have hsreset : ∀ d, i ≠ .sreset d := by rcases hi with ⟨d, rfl⟩ | ⟨d, rfl⟩ | rfl <;> simp
    have ha := exec_eq_next_iff.1 ht
    obtain ⟨r, hout, hagain⟩ := ha.again hfeed hsreset
    obtain rfl := (exec_eq_next_iff.1 hu).unique hagain
    exact ⟨ha.keeps_sd hfeed hsreset, r, hout, rfl⟩
  · exact sreset_again (exec_eq_next_iff.1 ht) (exec_eq_next_iff.1 hu)
  · exact ⟨State.reset, _, _, [0x00#8, 0x01#8], [], [.frame []], inv_powerOn _, rfl, rfl, rfl, rfl, by decide⟩

end Sys2Proof.Machine
end

section
/-! PROOF. A command's bytes: the opcode map and the decoder as the encoder's inverse in both directions (spec
30_encoding.md R61, R67). -/

namespace Sys2Proof

/-- R67: an opcode byte lies in the second reserved row or is one of the six before it. -/
theorem opcode_cases (op : Byte) :
    6 ≤ op.toNat ∨ op = opcReservedZero ∨ op = opcEnc ∨ op = opcDec ∨ op = opcFeed ∨ op = opcSreset ∨
      op = opcSstat := by
  simp only [opcReservedZero, opcEnc, opcDec, opcFeed, opcSreset, opcSstat]
  bv_omega

/-- R65, R67: an opcode byte of the second reserved row selects that row. -/
theorem decodeCommand_reservedHigh {op : Byte} (h : 6 ≤ op.toNat) (d : Bytes) :
    decodeCommand ⟨op, d⟩ = .reservedHigh op d := by
  have hne : ∀ v : Byte, v.toNat < 6 → op ≠ v := by rintro v hv rfl; omega
  simp [decodeCommand, hne, opcReservedZero, opcEnc, opcDec, opcFeed, opcSreset, opcSstat]

/-- R61, R67: the command of a well-formed instruction decodes to it. -/
theorem decodeCommand_encodeCommand {i : Instr} (h : i.wellFormed = true) :
    decodeCommand (encodeCommand i) = i := by
  cases i with
  | reservedHigh op d => exact decodeCommand_reservedHigh (of_decide_eq_true h) d
  | _ => rfl

/-- R61, R67: every command decodes to a well-formed instruction, whose command it is. -/
theorem decodeCommand_spec (c : Command) :
    (decodeCommand c).wellFormed = true ∧ encodeCommand (decodeCommand c) = c := by
  obtain ⟨op, d⟩ := c
  rcases opcode_cases op with h | rfl | rfl | rfl | rfl | rfl | rfl
  · rw [decodeCommand_reservedHigh h]
    exact ⟨decide_eq_true h, rfl⟩
  all_goals exact ⟨rfl, rfl⟩

/-- R65, R67: the opcodes of the reserved instructions. -/
theorem format_eq_cmdAny_iff {i : Instr} (h : i.wellFormed = true) :
    i.format = .cmdAny ↔ i.opcode = 0x00#8 ∨ 6 ≤ i.opcode.toNat := by
  cases i with
  | reservedHigh op d => exact ⟨fun _ => .inr (of_decide_eq_true h), fun _ => rfl⟩
  | _ => simp [Instr.format, Instr.opcode, opcEnc, opcDec, opcFeed, opcSreset, opcSstat, opcReservedZero]

/-- R66, R67: the opcodes of the instructions that take no operand. -/
theorem format_eq_cmdN_iff {i : Instr} (h : i.wellFormed = true) :
    i.format = .cmdN ↔ i.opcode = 0x04#8 ∨ i.opcode = 0x05#8 := by
  cases i with
  | reservedHigh op d =>
    have h6 : 6 ≤ op.toNat := of_decide_eq_true h
    have hne : ¬(op = 0x04#8 ∨ op = 0x05#8) := by bv_omega
    simp [Instr.format, Instr.opcode, hne]
  | _ => simp [Instr.format, Instr.opcode, opcEnc, opcDec, opcFeed, opcSreset, opcSstat, opcReservedZero]

/-- Settles O2: on bytes, the two directions are those on commands. -/
theorem decodeEncodeRoundTrip : Obligations.DecodeEncodeRoundTrip := by
  refine ⟨fun i h => congrArg Except.ok (decodeCommand_encodeCommand h), fun bs hbs => ?_⟩
  cases bs with
  | nil => exact absurd rfl hbs
  | cons op d =>
    obtain ⟨hwf, henc⟩ := decodeCommand_spec ⟨op, d⟩
    exact ⟨_, hwf, rfl, congrArg (fun c : Command => c.op :: c.d) henc⟩

/-- Settles O1: the six named codes select their rows by computation, the others the second reserved row. -/
theorem opcodeMapSelectsCommand : Obligations.OpcodeMapSelectsCommand := fun d =>
  ⟨rfl, rfl, rfl, rfl, rfl, rfl, fun _ h => congrArg Except.ok (decodeCommand_reservedHigh h d)⟩

end Sys2Proof
end

section
/-! PROOF. Admission: the checks in the order of spec 30_encoding.md R68, and what each refusal answers (R64 to
R66). -/

namespace Sys2Proof.Machine

/-- R65: a command of a reserved code is refused whatever its operand. -/
theorem exec_of_reserved {i : Instr} (h : i.format = .cmdAny) (s : State) :
    exec i s = .next (raiseError statusIllegalOpcode s) :=
  exec_of_refused (by rw [h, admission_cmdAny])

/-- R66: a command that takes no operand is refused with one. -/
theorem exec_of_operand {i : Instr} (h : i.format = .cmdN) (hd : i.operand ≠ []) (s : State) :
    exec i s = .next (raiseError statusIllegalOperand s) :=
  exec_of_refused (by rw [h, admission_cmdN, if_neg hd])

/-- R64: a command that takes an operand is refused with one longer than `MAX_IN`. -/
theorem exec_of_tooLong {i : Instr} {s : State} (h : i.format = .cmdD) (hd : tooLong s.config i.operand = true) :
    exec i s = .next (raiseError statusOperandTooLong s) :=
  exec_of_refused (by rw [h, admission_cmdD, if_pos hd])

/-- R64: with `MAX_IN = inf` no operand is too long. -/
theorem admission_of_unlimited {c : Config} (hc : c.maxIn = none) (f : CmdFormat) (d : Bytes) :
    admission f c d ≠ some statusOperandTooLong := by
  have hl : tooLong c d = false := by simp [tooLong, hc]
  cases f with
  | cmdD => simp [admission_cmdD, hl]
  | cmdN => by_cases hd : d = [] <;> simp [admission_cmdN, hd, statusIllegalOperand, statusOperandTooLong]
  | cmdAny => simp [statusIllegalOpcode, statusOperandTooLong]

/-- R68: the status of the response is that of the first check that fails, else `OK`. -/
theorem Answers.status {s t : State} {i : Instr} (h : Answers s i t) :
    ∃ r, t.outPort.getLast? = some (.response r) ∧
      r.status = (admission i.format s.config i.operand).getD statusOk := by
  have hpass {d : Bytes} (ha : tooLong s.config d = false) : admission .cmdD s.config d = none := by
    simp [admission_cmdD, ha]
  cases h with
  | @refused _ code h => exact ⟨errorResponse code, by simp, by rw [h]; rfl⟩
  | @enc _ f ha _ => exact ⟨encResponse f, by simp, by rw [Instr.format, Instr.operand, hpass ha]; rfl⟩
  | @dec d ha => exact ⟨decOf d, by simp, by rw [Instr.format, Instr.operand, hpass ha]; rfl⟩
  | @feed _ _ es ha _ =>
    exact ⟨feedResponse es.length, by simp, by rw [Instr.format, Instr.operand, hpass ha]; rfl⟩
  | sreset =>
    exact ⟨sresetResponse s.sd, by simp, by simp [Instr.format, Instr.operand, admission_cmdN, sresetResponse]⟩
  | sstat =>
    exact ⟨sstatResponse s.sd, by simp, by simp [Instr.format, Instr.operand, admission_cmdN, sstatResponse]⟩

/-- R68: the order of the checks. -/
theorem admission_status (f : CmdFormat) (k : Config) (d : Bytes) :
    (admission f k d).getD statusOk =
      if f = .cmdAny then 0x01#8
      else if f = .cmdN ∧ d ≠ [] then 0x02#8
      else if tooLong k d then 0x03#8
      else 0x00#8 := by
  cases f with
  | cmdAny => rfl
  | cmdD => by_cases hl : tooLong k d = true <;> simp [admission_cmdD, hl, statusOk, statusOperandTooLong]
  | cmdN =>
    by_cases hd : d = []
    · simp [admission_cmdN, hd, statusOk]
    · simp [admission_cmdN, hd, statusIllegalOperand]

/-- Settles O10: from a good state every command answers, with the status of the first check that fails. -/
theorem admissionOrder : Obligations.AdmissionOrder := by
  intro s c hs
  obtain ⟨t, ht⟩ := hs.exec_next (decodeCommand c)
  obtain ⟨r, hlast, hstatus⟩ := (exec_eq_next_iff.1 ht).status
  refine ⟨t, r, ht, hlast, ?_⟩
  obtain ⟨hwf, henc⟩ := decodeCommand_spec c
  have hop : (decodeCommand c).opcode = c.op := congrArg Command.op henc
  have hd : (decodeCommand c).operand = c.d := congrArg Command.d henc
  simp only [hstatus, admission_status, format_eq_cmdAny_iff hwf, format_eq_cmdN_iff hwf, hop, hd]

/-- Settles O9: the length check refuses the three commands, and without a limit it refuses none. -/
theorem overlongOperandRefused : Obligations.OverlongOperandRefused := by
  refine ⟨fun s m d hm hd => ?_, fun s t i r hmax ht hlast hr => ?_⟩
  · have hl : tooLong s.config d = true := by simpa [tooLong, hm] using hd
    exact ⟨exec_of_tooLong (i := .enc d) rfl hl, exec_of_tooLong (i := .dec d) rfl hl,
      exec_of_tooLong (i := .feed d) rfl hl⟩
  · obtain ⟨r', hlast', hstatus⟩ := (exec_eq_next_iff.1 ht).status
    obtain rfl : r' = r := by simpa [hlast'] using hlast
    rw [hstatus] at hr
    have hne := admission_of_unlimited hmax i.format i.operand
    cases ha : admission i.format s.config i.operand with
    | none => simp [ha, statusOk] at hr
    | some code =>
      rw [ha] at hr hne
      exact hne (congrArg some hr)

/-- Settles O7: a reserved opcode selects one of the two reserved rows. -/
theorem reservedOpcodesRefused : Obligations.ReservedOpcodesRefused := by
  refine fun s op d => ⟨fun h => ?_, exec_of_reserved rfl s, exec_of_reserved rfl s⟩
  rcases h with rfl | h
  · exact exec_of_reserved (i := .reservedZero d) rfl s
  · rw [decodeCommand_reservedHigh h]
    exact exec_of_reserved rfl s

/-- Settles O8: both commands are of the format without an operand. -/
theorem operandOnSresetSstatRefused : Obligations.OperandOnSresetSstatRefused := fun s d hd =>
  ⟨exec_of_operand (i := .sreset d) rfl hd s, exec_of_operand (i := .sstat d) rfl hd s⟩

end Sys2Proof.Machine
end

section
/-! PROOF. A frame's blocks are found from its overhead bytes (spec 30_encoding.md R76). -/

namespace Sys2Proof.Machine

/-- R76: reading blocks off a non-empty sequence takes one block of the announced shape and goes on behind it. -/
theorem parseBlocks_cons {n : Nat} {v : Byte} {f : Bytes} {bs : List Block} :
    parseBlocks (n + 1) (v :: f) = some bs ↔
      v ≠ 0x00#8 ∧ dataCount v ≤ f.length ∧
        ∃ bs', parseBlocks n (f.drop (dataCount v)) = some bs' ∧ bs = ⟨v, f.take (dataCount v)⟩ :: bs' := by
  by_cases hv : v = 0x00#8
  · simp [parseBlocks, hv]
  · by_cases hl : f.length < dataCount v
    · simp [parseBlocks, hl, Nat.not_le.2 hl]
    · simp [parseBlocks, hv, hl, Nat.not_lt.1 hl, eq_comm]

/-- R76: the blocks of the announced shape are read off their bytes. -/
theorem parseBlocks_frameBytes {bs : List Block} (h : bs.all Block.shaped = true) {n : Nat}
    (hn : (frameBytes bs).length ≤ n) : parseBlocks n (frameBytes bs) = some bs := by
  induction bs generalizing n with
  | nil => cases n <;> rfl
  | cons b bs ih =>
    obtain ⟨hb, hbs⟩ : b.shaped = true ∧ bs.all Block.shaped = true := by simpa using h
    obtain ⟨hv, hl⟩ := Block.shaped_iff.1 hb
    cases n with
    | zero => simp at hn
    | succ n =>
      rw [frameBytes_cons, List.cons_append, parseBlocks_cons, ← hl]
      refine ⟨hv, by simp, bs, ?_, by simp⟩
      rw [List.drop_left]
      exact ih hbs (by simp at hn; omega)

/-- R76: what is read off a sequence has the announced shape and is the sequence. -/
theorem frameBytes_of_parseBlocks {n : Nat} {f : Bytes} {bs : List Block} (h : parseBlocks n f = some bs) :
    frameBytes bs = f ∧ bs.all Block.shaped = true := by
  induction n generalizing f bs with
  | zero =>
    cases f with
    | nil => cases h; exact ⟨rfl, rfl⟩
    | cons v f => cases h
  | succ n ih =>
    cases f with
    | nil => cases h; exact ⟨rfl, rfl⟩
    | cons v f =>
      obtain ⟨hv, hl, bs', hbs', rfl⟩ := parseBlocks_cons.1 h
      obtain ⟨hbytes, hshaped⟩ := ih hbs'
      have hb : Block.shaped ⟨v, f.take (dataCount v)⟩ = true := Block.shaped_iff.2 ⟨hv, by simpa using hl⟩
      exact ⟨by simp [hbytes], by simp [hb, hshaped]⟩

/-- Settles O58: a frame has at most as many blocks as bytes. -/
theorem blocksFoundFromOverheadBytes : Obligations.BlocksFoundFromOverheadBytes :=
  ⟨fun _ h => parseBlocks_frameBytes h (Nat.le_refl _), fun _ _ h => frameBytes_of_parseBlocks h⟩

end Sys2Proof.Machine
end

section
/-! PROOF. DEC of whole blocks (spec 41_block_decoder.md R130, R132, R133). -/

namespace Sys2Proof.Machine

/-- R130, R132, R133: DEC's response for whole blocks, whatever their data bytes. -/
theorem decOf_frameBytes {bs : List Block} (hne : bs ≠ []) (h : bs.all Block.shaped = true) :
    decOf (frameBytes bs) =
      ⟨0x00#8, framePayload bs, (frameBytes bs).length, if hasZeroData bs then 0x04#8 else 0x00#8⟩ := by
  have hloop := decLoop_blocks bs [] (decInit (frameBytes bs)) h rfl
  have hflags : (decInit (frameBytes bs)).flags = 0x00#8 := by
    cases bs with
    | nil => exact absurd rfl hne
    | cons b bs => simp [decInit]
  rw [List.append_nil] at hloop
  rw [decOf, hloop, hflags]
  simp [decLoop, decEnd, decResponse, decInit, hne, zeroBefore, flagZdata, statusOk]

/-- Settles O21: the response of an admitted DEC is a function of the frame. -/
theorem decOfWholeBlocks : Obligations.DecOfWholeBlocks := by
  intro s bs hne h ha
  rw [← decOf_frameBytes hne h]
  exact execDec_of_admitted ha

end Sys2Proof.Machine
end

section
/-! PROOF. ENC's frame as a list of blocks: it is a frame, its last block is not saturated, it ends with the
double-block tail when the payload's last run is saturated (spec 30_encoding.md R75), and every frame is ENC of
its payload but for that tail (R80). -/

namespace Sys2Proof.Machine

/-- R100, R105: an admitted ENC answers with the bytes of the closed form's blocks. -/
theorem exec_enc_of_admitted {s : State} {p : Bytes} (ha : tooLong s.config p = false) :
    exec (.enc p) s = .next (respond (encResponse (frameBytes (encBlocks p))) { s with enc := none }) :=
  execEnc_of_data ha (encData_eq_encClosed p)

/-! ### Blocks -/

/-- R72: the block of a run of at most 254 non-zero bytes is complete. -/
theorem complete_of_run {d : Bytes} (hd : ∀ b ∈ d, b ≠ 0x00#8) (hl : d.length ≤ 254) :
    Block.complete ⟨BitVec.ofNat 8 (d.length + 1), d⟩ = true := by
  have hv : (BitVec.ofNat 8 (d.length + 1)).toNat = d.length + 1 := by
    rw [BitVec.toNat_ofNat]; omega
  refine Block.complete_iff.2 ⟨Block.shaped_iff.2 ⟨?_, by simp only [dataCount, hv]; omega⟩, hd⟩
  intro h
  rw [show BitVec.ofNat 8 (d.length + 1) = 0x00#8 from h] at hv
  cases hv

/-- R71, R74: a complete block's data is a run of non-zero bytes, 254 of them when it is saturated and fewer
when it is not. -/
theorem Block.complete_cases {b : Block} (h : b.complete = true) :
    (∀ x ∈ b.data, x ≠ 0x00#8) ∧
      (b.data.length = 254 ∧ b = ⟨0xFF#8, b.data⟩ ∨
        b.data.length < 254 ∧ b = ⟨BitVec.ofNat 8 (b.data.length + 1), b.data⟩) := by
  obtain ⟨hshaped, hd⟩ := Block.complete_iff.1 h
  obtain ⟨hv, hl⟩ := Block.shaped_iff.1 hshaped
  obtain ⟨v, d⟩ := b
  refine ⟨hd, ?_⟩
  simp only [dataCount, Block.mk.injEq, and_true] at hv hl ⊢
  bv_omega

/-- R74: a block of fewer than 254 data bytes is not saturated. -/
theorem saturated_of_short {d : Bytes} (hl : d.length < 254) :
    Block.saturated ⟨BitVec.ofNat 8 (d.length + 1), d⟩ = false := by
  simp only [Block.saturated, decide_eq_false_iff_not]
  bv_omega

/-- R73, R105: a complete block and its implied zero, before anything else of a payload, give the first block of
the closed form. -/
theorem encBlocks_block {b : Block} (h : b.complete = true) (p : Bytes) :
    encBlocks (b.data ++ impliedZero b ++ p) = b :: encBlocks p := by
  obtain ⟨hd, ⟨hl, hb⟩ | ⟨hl, hb⟩⟩ := Block.complete_cases h
  · rw [hb]
    simpa [impliedZero, Block.saturated] using encBlocks_saturated hd hl p
  · rw [hb]
    simpa [impliedZero, saturated_of_short hl] using encBlocks_zero hd hl p

/-- R105: the empty payload is the empty block. -/
@[simp] theorem encBlocks_nil : encBlocks [] = [⟨0x01#8, []⟩] := encBlocks_short (by simp) (by simp)

/-- R75: the data of a complete block alone: that block, and the tail after a saturated one. -/
theorem encBlocks_data {b : Block} (h : b.complete = true) :
    encBlocks b.data = if b.saturated then [b, ⟨0x01#8, []⟩] else [b] := by
  obtain ⟨hd, ⟨hl, hb⟩ | ⟨hl, hb⟩⟩ := Block.complete_cases h
  · rw [hb]
    simpa [Block.saturated] using encBlocks_saturated hd hl []
  · rw [hb]
    simpa [saturated_of_short hl] using encBlocks_short hd hl

/-! ### Frames -/

/-- R74: whether a frame ends saturated is a matter of its last block. -/
theorem endsSaturated_cons_cons (b b' : Block) (bs : List Block) :
    endsSaturated (b :: b' :: bs) = endsSaturated (b' :: bs) := by
  simp [endsSaturated, List.getLast?_cons_cons]

/-- R80: the closed form of a frame's payload is the frame, with the tail after a saturated end. -/
theorem encBlocks_framePayload {bs : List Block} (h : isFrame bs = true) :
    encBlocks (framePayload bs) = if endsSaturated bs then bs ++ [⟨0x01#8, []⟩] else bs := by
  induction bs with
  | nil => cases h
  | cons b bs ih =>
    obtain ⟨hb, hbs⟩ : b.complete = true ∧ bs.all Block.complete = true := by simpa [isFrame] using h
    cases bs with
    | nil => exact encBlocks_data hb
    | cons b' bs =>
      rw [framePayload, encBlocks_block hb, ih (by simpa [isFrame] using hbs), endsSaturated_cons_cons]
      split <;> rfl

/-- R71, R74: a complete block before a frame makes a frame with the same end. -/
theorem isFrame_cons {b : Block} {bs : List Block} (hb : b.complete = true) (h : isFrame bs = true) :
    isFrame (b :: bs) = true ∧ endsSaturated (b :: bs) = endsSaturated bs := by
  cases bs with
  | nil => cases h
  | cons b' bs =>
    have hbs : (b' :: bs).all Block.complete = true := h
    exact ⟨by simp [isFrame, hb, hbs], endsSaturated_cons_cons b b' bs⟩

/-- R71, R75: the closed form is a frame that does not end saturated. -/
theorem encBlocks_isFrame (p : Bytes) : isFrame (encBlocks p) = true ∧ endsSaturated (encBlocks p) = false := by
  induction p using payload_induction with
  | short d hd hl =>
    rw [encBlocks_short hd hl]
    simp [isFrame, endsSaturated, complete_of_run hd hl.le, saturated_of_short hl]
  | zero d p hd hl ih =>
    obtain ⟨hframe, hend⟩ := isFrame_cons (complete_of_run hd hl.le) ih.1
    rw [encBlocks_zero hd hl]
    exact ⟨hframe, hend.trans ih.2⟩
  | saturated d p hd hl ih =>
    have hb : Block.complete ⟨0xFF#8, d⟩ = true := by simpa [hl] using complete_of_run hd hl.le
    obtain ⟨hframe, hend⟩ := isFrame_cons hb ih.1
    rw [encBlocks_saturated hd hl]
    exact ⟨hframe, hend.trans ih.2⟩

/-! ### The last run -/

/-- R75: what stands before a sequence lengthens its last run exactly when the sequence has no zero byte. -/
theorem lastRun_append (a b : Bytes) :
    lastRun (a ++ b) = if lastRun b = b.length then b.length + lastRun a else lastRun b := by
  by_cases h : lastRun b = b.length
  · rw [if_pos h]
    simp only [lastRun] at h ⊢
    simp only [List.reverse_append, List.takeWhile_append, List.length_reverse, if_pos h, List.length_append]
  · rw [if_neg h]
    simp only [lastRun] at h ⊢
    simp only [List.reverse_append, List.takeWhile_append, List.length_reverse, if_neg h]

/-- R75: a run of non-zero bytes is its own last run. -/
theorem lastRun_run {d : Bytes} (hd : ∀ b ∈ d, b ≠ 0x00#8) : lastRun d = d.length := by
  rw [lastRun, List.takeWhile_eq_self_iff.2 (by simpa using hd), List.length_reverse]

/-- R75: nothing before a zero byte belongs to the last run. -/
theorem lastRun_append_zero (d p : Bytes) : lastRun (d ++ 0x00#8 :: p) = lastRun p := by
  have hzero : lastRun (d ++ [0x00#8]) = 0 := by simp [lastRun]
  rw [List.append_cons, lastRun_append, hzero]
  split <;> omega

/-- R75: the last run is saturated when its length is a positive multiple of 254. -/
theorem needsTail_iff {p : Bytes} : needsTail p = true ↔ 0 < lastRun p ∧ lastRun p % 254 = 0 := by
  simp [needsTail]

/-- R75: the closed form of a payload whose last run is saturated ends with the double-block tail. -/
theorem encBlocks_tail (p : Bytes) (h : needsTail p = true) :
    ∃ bs b, encBlocks p = bs ++ [b, ⟨0x01#8, []⟩] ∧ b.ovh = 0xFF#8 := by
  induction p using payload_induction with
  | short d hd hl =>
    obtain ⟨hpos, hmod⟩ := needsTail_iff.1 h
    rw [lastRun_run hd] at hpos hmod
    omega
  | zero d p hd hl ih =>
    obtain ⟨bs, b, hbs, hb⟩ := ih (by simpa only [needsTail, lastRun_append_zero] using h)
    rw [encBlocks_zero hd hl, hbs]
    exact ⟨_ :: bs, b, rfl, hb⟩
  | saturated d p hd hl ih =>
    rw [encBlocks_saturated hd hl]
    by_cases hp : p = []
    · subst hp
      exact ⟨[], _, by rw [encBlocks_nil]; rfl, rfl⟩
    · have htail : needsTail p = true := by
        have hpos := List.length_pos_iff.2 hp
        rw [needsTail_iff, lastRun_append, lastRun_run hd, hl] at h
        rw [needsTail_iff]
        split at h <;> omega
      obtain ⟨bs, b, hbs, hb⟩ := ih htail
      rw [hbs]
      exact ⟨_ :: bs, b, rfl, hb⟩

/-- Settles O17: ENC's frame is the closed form's blocks, whose end is known. -/
theorem doubleBlockTail : Obligations.DoubleBlockTail := by
  refine ⟨fun s p ha htail => ?_, fun s p ha => ?_⟩
  · obtain ⟨bs, b, hbs, hb⟩ := encBlocks_tail p htail
    refine ⟨_, bs, b, exec_enc_of_admitted ha, ?_, hbs ▸ (encBlocks_isFrame p).1, hb⟩
    rw [hbs, respond_outPort, List.getLast?_concat]
    rfl
  · obtain ⟨hframe, hend⟩ := encBlocks_isFrame p
    exact ⟨_, encBlocks p, exec_enc_of_admitted ha, List.getLast?_concat, hframe, hend⟩

/-- Settles O29: the closed form of the frame's payload is the frame, with the tail when it ends saturated. -/
theorem frameIsEncodingOfItsPayload : Obligations.FrameIsEncodingOfItsPayload := by
  intro s bs hframe ha
  refine ⟨_, _, exec_enc_of_admitted ha, rfl, ?_⟩
  rw [encBlocks_framePayload hframe]
  split <;> simp

end Sys2Proof.Machine
end

section
/-! PROOF. The pseudo-instructions (spec 30_encoding.md R83). -/

namespace Sys2Proof.Machine

/-- Settles O59: FEEDF's frame is the one ENC answers with; the others expand by computation. -/
theorem pseudoInstructionsExpand : Obligations.PseudoInstructionsExpand := by
  refine ⟨fun s p ha => ?_, fun _ => rfl, rfl, fun _ _ => rfl⟩
  refine ⟨_, encClosed p, exec_enc_of_admitted ha, List.getLast?_concat, ?_⟩
  rw [asmFeedf, encData_eq_encClosed]
  rfl

end Sys2Proof.Machine
end

section
/-! PROOF. ENC's loop: the passes at a saturated block (spec 40_encoder.md R102), the immediate-close loop (R104)
and the bound on the passes (R100, R209). -/

namespace Sys2Proof.Machine

/-- R102: a saturated block is closed first, whatever the next byte. -/
theorem encPass_of_saturated {p : Bytes} {r : EncRegs} {b : Byte} (hb : p[r.i]? = some b) (hc : r.code = 0xFF#8) :
    encPass p r = closeBlock r := by
  simp [encPass, hb, hc]

/-- R100: a zero byte closes a block that is not saturated, and is consumed. -/
theorem encPass_of_zero {p : Bytes} {r : EncRegs} (hb : p[r.i]? = some 0x00#8) (hc : r.code ≠ 0xFF#8) :
    encPass p r = { closeBlock r with i := r.i + 1 } := by
  simp [encPass, hb, hc, closeBlock]

/-- R75, R102: a run of 254 non-zero bytes and a zero are a saturated block and an empty one. -/
theorem encClosed_saturated_zero {d : Bytes} (hd : ∀ b ∈ d, b ≠ 0x00#8) (hl : d.length = 254) (q : Bytes) :
    encClosed (d ++ 0x00#8 :: q) = 0xFF#8 :: d ++ 0x01#8 :: encClosed q := by
  have hzero : encBlocks (0x00#8 :: q) = ⟨0x01#8, []⟩ :: encBlocks q :=
    encBlocks_zero (d := []) (by simp) (by simp) q
  simp [encClosed, encBlocks_saturated hd hl, hzero]

/-- Settles O18: the second pass meets the restarted overhead value, which is not saturated. -/
theorem saturationBeforeZero : Obligations.SaturationBeforeZero := by
  refine ⟨fun p r hc hb => ?_, fun s d q hl hd ha => ?_⟩
  · have hpass : encPass p r = closeBlock r := encPass_of_saturated hb hc
    have hnext : encPass p (closeBlock r) = { closeBlock (closeBlock r) with i := r.i + 1 } :=
      encPass_of_zero hb (by simp [closeBlock])
    rw [hpass, hnext]
    exact ⟨rfl, by simp [closeBlock, bufAppend, bufWrite, hc], rfl, rfl, rfl⟩
  · rw [← encClosed_saturated_zero hd hl]
    exact exec_enc_of_admitted ha

/-- R104: the immediate-close loop, from an open block that is not saturated, ends on the closed form of what was
open and what was left. -/
theorem encImmediate_encAt (q : Bytes) :
    ∀ (done cur : Bytes) (i : Nat), (∀ b ∈ cur, b ≠ 0x00#8) → cur.length < 254 →
      (writeSlot (q.foldl encImmediateByte (encAt done cur i))).out = (done ++ encClosed (cur ++ q)).map some := by
  induction q with
  | nil =>
    intro done cur i hd hl
    simp [writeSlot_encAt, encClosed, encBlocks_short hd hl]
  | cons b q ih =>
    intro done cur i hd hl
    rw [List.foldl_cons, encImmediateByte]
    by_cases hb : b = 0x00#8
    · rw [if_pos hb, closeBlock_encAt, ih _ _ _ (by simp) (by simp), hb]
      simp [encClosed, encBlocks_zero hd hl]
    · have hd' : ∀ x ∈ cur ++ [b], x ≠ 0x00#8 := by
        simpa [or_imp, forall_and] using ⟨hd, hb⟩
      have hlen : (cur ++ [b]).length = cur.length + 1 := List.length_append
      rw [if_neg hb, encAppend_encAt, closeSaturated_encAt (by omega), List.append_cons cur b q]
      by_cases hfull : (cur ++ [b]).length = 254
      · rw [if_pos hfull, ih _ _ _ (by simp) (by simp)]
        simp only [encClosed, encBlocks_saturated hd' hfull]
        simp
      · rw [if_neg hfull]
        exact ih done _ i hd' (by omega)

/-- R100, R105: ENC's loop on the whole payload, within its bound on the passes: it consumes the payload, and the
end of the scan gives the closed form. -/
theorem encLoop_encInit (p : Bytes) :
    (encLoop (encPasses p) p encInit).i = p.length ∧
      (encFinish (encLoop (encPasses p) p encInit)).out = (encClosed p).map some :=
  encLoop_encAt (encPasses p) [] [] p p 0 (by simp) (by simp) rfl (Nat.zero_le _) (by simp [encPasses])

/-- Settles O19: both loops end on the closed form. -/
theorem immediateCloseEquivalent : Obligations.ImmediateCloseEquivalent := fun p =>
  (encLoop_encInit p).2.trans (encImmediate_encAt p [] [] 0 (by simp) (by simp)).symm

/-- Settles O20: the loop's bound is the number of passes the closed blocks need. -/
theorem encoderPassBound : Obligations.EncoderPassBound := fun p => (encLoop_encInit p).1

end Sys2Proof.Machine
end

section
/-! PROOF. What ENC answers: the closed form (spec 40_encoder.md R105), its length (R106), its bytes (R107) and its
blocks (R108), and that DEC gives the payload back (R109). -/

namespace Sys2Proof.Machine

/-- Settles O13: what an admitted ENC answers, with the response written out. -/
theorem encProducesClosedForm : Obligations.EncProducesClosedForm := fun _ _ ha => exec_enc_of_admitted ha

/-! ### The length -/

/-- R105: the segments and the zero bytes between them are the payload. -/
theorem segments_length (p : Bytes) :
    ((segments p).map List.length).sum + (segments p).length = p.length + 1 := by
  induction p with
  | nil => rfl
  | cons b p ih =>
    by_cases hb : b = 0x00#8
    · rw [hb, segments_zero]
      simp only [List.map_cons, List.sum_cons, List.length_cons, List.length_nil]
      omega
    · obtain ⟨s, ss, hs, hbs⟩ := segments_nonzero hb p
      rw [hs] at ih
      rw [hbs]
      simp only [List.map_cons, List.sum_cons, List.length_cons] at ih ⊢
      omega

/-- R105: each block of a segment adds its overhead byte. -/
theorem frameBytes_segmentBlocks_length (m : Nat) (s : Bytes) :
    (frameBytes (segmentBlocks m s)).length = s.length + 1 + m := by
  induction m generalizing s with
  | zero => simp [segmentBlocks]
  | succ m ih =>
    simp only [segmentBlocks, frameBytes_cons, List.length_append, List.length_cons, List.length_take, ih,
      List.length_drop]
    omega

/-- R105: the length of the blocks of several segments. -/
theorem frameBytes_segments_length (ss : List Bytes) :
    (frameBytes (ss.flatMap fun s => segmentBlocks (s.length / maxBlockData) s)).length =
      (ss.map List.length).sum + ss.length + (ss.map fun s => s.length / maxBlockData).sum := by
  induction ss with
  | nil => rfl
  | cons s ss ih =>
    simp only [List.flatMap_cons, frameBytes_append, List.length_append, frameBytes_segmentBlocks_length, ih,
      List.map_cons, List.sum_cons, List.length_cons]
    omega

/-- R106: the length of the closed form. -/
theorem encClosed_length (p : Bytes) : (encClosed p).length = encodedLength p := by
  rw [encClosed, encBlocks, frameBytes_segments_length, segments_length, encodedLength]

/-- R106: several segments have at most as many saturated blocks as one of their total length. -/
theorem sum_saturated_le (ss : List Bytes) :
    (ss.map fun s => s.length / maxBlockData).sum ≤ (ss.map List.length).sum / maxBlockData := by
  induction ss with
  | nil => simp
  | cons s ss ih =>
    simp only [List.map_cons, List.sum_cons]
    exact (Nat.add_le_add_left ih _).trans (Nat.div_add_div_le_add_div ..)

/-- R106: the saturated blocks of the segments are at most those of a payload without a zero byte. -/
theorem encodedLength_le (p : Bytes) : encodedLength p ≤ p.length + 1 + p.length / 254 := by
  have hsum : ((segments p).map List.length).sum ≤ p.length := by
    have := List.length_pos_iff.2 (segments_ne_nil p)
    have := segments_length p
    omega
  exact Nat.add_le_add_left ((sum_saturated_le _).trans (Nat.div_le_div_right hsum)) _

/-- R106: without a saturated block the frame has one byte more than the payload. -/
theorem encodedLength_of_short {p : Bytes} (h : ∀ g ∈ segments p, g.length < 254) :
    encodedLength p = p.length + 1 := by
  have hzero : ((segments p).map fun s => s.length / maxBlockData).sum = 0 :=
    List.sum_eq_zero fun n hn => by
      obtain ⟨g, hg, rfl⟩ := List.mem_map.1 hn
      exact Nat.div_eq_of_lt (h g hg)
  rw [encodedLength, hzero, Nat.add_zero]

/-- Settles O14: the frame is the closed form, whose length is known. -/
theorem encodedLengthBounds : Obligations.EncodedLengthBounds := by
  intro s p ha
  refine ⟨_, encClosed p, exec_enc_of_admitted ha, List.getLast?_concat, encClosed_length p, ?_⟩
  rw [encClosed_length]
  exact ⟨Nat.le_add_right .., encodedLength_le p, encodedLength_of_short⟩

/-! ### The blocks -/

/-- R105: every block of the closed form is complete. -/
theorem encBlocks_complete (p : Bytes) : ∀ b ∈ encBlocks p, b.complete = true := by
  obtain ⟨hframe, -⟩ := encBlocks_isFrame p
  simp only [isFrame, Bool.and_eq_true, List.all_eq_true] at hframe
  exact hframe.2

/-- R71: complete blocks have no zero byte. -/
theorem frameBytes_ne_zero {bs : List Block} (h : ∀ b ∈ bs, b.complete = true) :
    ∀ x ∈ frameBytes bs, x ≠ 0x00#8 := by
  intro x hx
  obtain ⟨b, hb, hxb⟩ := List.mem_flatMap.1 hx
  obtain ⟨hshaped, hdata⟩ := Block.complete_iff.1 (h b hb)
  rcases List.mem_cons.1 hxb with rfl | hxd
  · exact (Block.shaped_iff.1 hshaped).1
  · exact hdata x hxd

/-- R73: a frame's payload, block by block. -/
theorem framePayload_cons {bs : List Block} (h : bs ≠ []) (b : Block) :
    framePayload (b :: bs) = b.data ++ impliedZero b ++ framePayload bs := by
  cases bs with
  | nil => exact absurd rfl h
  | cons b' bs => rfl

theorem encBlocks_ne_nil (p : Bytes) : encBlocks p ≠ [] := by
  intro h
  have := (encBlocks_isFrame p).1
  rw [h] at this
  cases this

/-- R73, R108: the blocks of the closed form stand for the payload. -/
theorem framePayload_encBlocks (p : Bytes) : framePayload (encBlocks p) = p := by
  induction p using payload_induction with
  | short d hd hl => rw [encBlocks_short hd hl, framePayload]
  | zero d p hd hl ih =>
    rw [encBlocks_zero hd hl, framePayload_cons (encBlocks_ne_nil p), ih]
    simp [impliedZero, saturated_of_short hl]
  | saturated d p hd hl ih =>
    rw [encBlocks_saturated hd hl, framePayload_cons (encBlocks_ne_nil p), ih]
    simp [impliedZero, Block.saturated]

/-- Settles O15: the closed form's blocks are complete. -/
theorem encodedFrameHasNoZero : Obligations.EncodedFrameHasNoZero := fun _ p ha =>
  ⟨_, encClosed p, exec_enc_of_admitted ha, List.getLast?_concat, frameBytes_ne_zero (encBlocks_complete p)⟩

/-- Settles O16: a complete block has at most 254 data bytes. -/
theorem encodedFrameIsBlocksOfPayload : Obligations.EncodedFrameIsBlocksOfPayload := by
  intro s p ha
  refine ⟨_, encBlocks p, exec_enc_of_admitted ha, List.getLast?_concat, (encBlocks_isFrame p).1, fun b hb => ?_,
    framePayload_encBlocks p⟩
  obtain ⟨-, ⟨hl, -⟩ | ⟨hl, -⟩⟩ := Block.complete_cases (encBlocks_complete p b hb) <;> omega

/-- R130, R132: DEC of complete blocks gives their payload, consumes them whole and sets no flag. -/
theorem decOf_complete {bs : List Block} (hne : bs ≠ []) (h : ∀ b ∈ bs, b.complete = true) :
    decOf (frameBytes bs) = ⟨0x00#8, framePayload bs, (frameBytes bs).length, 0x00#8⟩ := by
  have hshaped : bs.all Block.shaped = true := List.all_eq_true.2 fun b hb => (Block.complete_iff.1 (h b hb)).1
  have hdata : hasZeroData bs = false := by
    simpa [hasZeroData] using fun b hb hx => (Block.complete_iff.1 (h b hb)).2 _ hx rfl
  simp [decOf_frameBytes hne hshaped, hdata]

/-- Settles O30: ENC's frame is complete blocks that stand for the payload. -/
theorem blockRoundTrip : Obligations.BlockRoundTrip := by
  intro s s' p ha
  refine ⟨encClosed p, exec_enc_of_admitted ha, fun ha' => ?_⟩
  have hdec : decOf (encClosed p) = ⟨0x00#8, p, (encClosed p).length, 0x00#8⟩ := by
    rw [encClosed, decOf_complete (encBlocks_ne_nil p) (encBlocks_complete p), framePayload_encBlocks]
  rw [← hdec]
  exact execDec_of_admitted ha'

end Sys2Proof.Machine
end

section
/-! PROOF. How DEC ends (spec 41_block_decoder.md): at a 0x00 at an overhead position (R131, R139), at the end of
the input (R135); the bound on its output (R136) and the frames it takes without a flag (R137, R138). -/

namespace Sys2Proof.Machine

/-! ### DEC behind whole blocks -/

/-- R132, R133: the working registers behind the whole blocks at the front of a non-empty frame. -/
def decAfter (bs : List Block) : DecRegs :=
  { out := framePayload bs, copy := 0x00#8, ovh := lastOvh sentinel bs,
    flags := if hasZeroData bs then 0x04#8 else 0x00#8, i := (frameBytes bs).length }

/-- R130: DEC of a non-empty frame reads the whole blocks at its front and goes on behind them. -/
theorem decOf_blocks {bs : List Block} (h : bs.all Block.shaped = true) {rest : Bytes} (hne : rest ≠ []) :
    decOf (frameBytes bs ++ rest) = decResponse (decLoop rest (decAfter bs)) := by
  have hflags : (decInit (frameBytes bs ++ rest)).flags = 0x00#8 := by simp [decInit, hne]
  rw [decOf, decLoop_blocks bs rest _ h rfl, hflags]
  cases bs <;> simp [decInit, decAfter, zeroBefore, framePayload, flagZdata]

/-- R133: at an overhead position behind whole blocks, the implied zero of the last one goes out. -/
theorem decOverhead_decAfter (bs : List Block) (v : Byte) :
    decOverhead (decAfter bs) v =
      { decAfter bs with out := framePayload bs ++ zeroAfter bs, ovh := v, copy := v } := by
  rw [← zeroBefore_lastOvh]
  by_cases h : lastOvh sentinel bs = sentinel <;> simp [decOverhead, decAfter, zeroBefore, bufAppend, h]

/-- R131: DEC's response for whole blocks and then a 0x00; what stands behind it has no effect. -/
theorem decOf_malformed {bs : List Block} (h : bs.all Block.shaped = true) (rest : Bytes) :
    decOf (frameBytes bs ++ 0x00#8 :: rest) =
      ⟨0x00#8, framePayload bs ++ zeroAfter bs, (frameBytes bs).length,
        if hasZeroData bs then 0x05#8 else 0x01#8⟩ := by
  have hloop : decLoop (0x00#8 :: rest) (decAfter bs) = decMalformed (decOverhead (decAfter bs) 0x00#8) := by
    simp [decLoop, decAfter]
  rw [decOf_blocks h (by simp), hloop, decOverhead_decAfter]
  cases hz : hasZeroData bs <;> simp [decMalformed, decResponse, decAfter, hz, setFlag, flagMalf, statusOk]

/-- R132: the data bytes of one more block set `ZDATA` as those of the blocks before it do. -/
theorem dataFlags_decAfter (bs : List Block) (v : Byte) (d : Bytes) :
    dataFlags d (decAfter bs).flags = if hasZeroData (bs ++ [⟨v, d⟩]) then 0x04#8 else 0x00#8 := by
  have hzero : hasZeroData (bs ++ [⟨v, d⟩]) = (hasZeroData bs || d.any fun x => decide (x = 0x00#8)) := by
    simp [hasZeroData]
  simp only [hzero, dataFlags, decAfter]
  cases hasZeroData bs <;> cases d.any fun x => decide (x = 0x00#8) <;> rfl

/-- R135: DEC's response for whole blocks and then a block cut short. -/
theorem decOf_truncated {bs : List Block} (h : bs.all Block.shaped = true) {v : Byte} {d : Bytes} (hv : v ≠ 0x00#8)
    (hd : d.length < dataCount v) :
    decOf (frameBytes bs ++ v :: d) =
      ⟨0x00#8, framePayload (bs ++ [⟨v, d⟩]), (frameBytes bs ++ v :: d).length,
        if hasZeroData (bs ++ [⟨v, d⟩]) then 0x06#8 else 0x02#8⟩ := by
  rw [dataCount] at hd
  have hopen : decLoop (v :: d) (decAfter bs) = decLoop (d ++ []) (decBlockOpened (decOverhead (decAfter bs) v)) := by
    simp [decLoop, decAfter, hv]
  have hroom : d.length ≤ (v - 1#8).toNat := by bv_omega
  have hinside : v - 1#8 - BitVec.ofNat 8 d.length ≠ 0x00#8 := by bv_omega
  rw [decOf_blocks h (by simp), hopen, decOverhead_decAfter, decLoop_data _ _ _ hroom, framePayload_append]
  simp only [decLoop, decEnd, decBlockOpened, dataFlags_decAfter bs v, if_pos hinside]
  cases hasZeroData (bs ++ [⟨v, d⟩]) <;>
    simp [decResponse, decAfter, setFlag, flagTrunc, statusOk, Nat.add_assoc, Nat.add_comm 1]

/-- R135: DEC's response for the empty frame. -/
theorem decOf_nil : decOf [] = ⟨0x00#8, [], 0, 0x08#8⟩ := by decide

/-- Settles O22: the response is a function of the frame. -/
theorem decStopsAtZeroOverhead : Obligations.DecStopsAtZeroOverhead := by
  intro s bs rest h ha
  rw [← decOf_malformed h rest]
  exact execDec_of_admitted ha

/-- Settles O24: the response is a function of the frame, and the empty one is always admitted. -/
theorem decEndOfInputFlags : Obligations.DecEndOfInputFlags := by
  refine ⟨fun s bs v d h hv hd ha => ?_, fun s => ?_⟩
  · rw [← decOf_truncated h hv hd]
    exact execDec_of_admitted ha
  · rw [← decOf_nil]
    exact execDec_of_admitted (tooLong_nil s.config)

/-! ### Well-formed frames -/

/-- R137: a frame is at least one block, and every block is complete. -/
theorem isFrame_iff {bs : List Block} : isFrame bs = true ↔ bs ≠ [] ∧ ∀ b ∈ bs, b.complete = true := by
  simp [isFrame]

/-- R71, R132: complete blocks are blocks of the announced shape with no zero data byte. -/
theorem forall_complete_iff {bs : List Block} :
    (∀ b ∈ bs, b.complete = true) ↔ bs.all Block.shaped = true ∧ hasZeroData bs = false := by
  simp [Block.complete_iff, hasZeroData, forall_and, ← List.forall_mem_ne']

/-- R137: DEC's response for a well-formed frame. -/
theorem decOf_frame {bs : List Block} (h : isFrame bs = true) :
    decOf (frameBytes bs) = ⟨0x00#8, framePayload bs, (frameBytes bs).length, 0x00#8⟩ :=
  have ⟨hne, hcomplete⟩ := isFrame_iff.1 h
  decOf_complete hne hcomplete

/-- R133, R139: a frame implies a zero before a next block unless it ends saturated. -/
theorem zeroAfter_frame {bs : List Block} (hne : bs ≠ []) :
    zeroAfter bs = if endsSaturated bs then [] else [0x00#8] := by
  simp only [zeroAfter, endsSaturated, List.getLast?_eq_some_getLast hne, impliedZero]

/-- Settles O23: the delimiter stands at an overhead position, behind complete blocks. -/
theorem frameGivenWithItsDelimiter : Obligations.FrameGivenWithItsDelimiter := by
  intro s bs hframe ha
  obtain ⟨hne, hcomplete⟩ := isFrame_iff.1 hframe
  obtain ⟨hshaped, hzero⟩ := forall_complete_iff.1 hcomplete
  refine ⟨_, decOf (frameBytes bs), execDec_of_admitted (tooLong_mono (by simp) ha), rfl, ?_⟩
  have hdelim : decOf (frameBytes bs ++ [0x00#8]) =
      ⟨0x00#8, if endsSaturated bs then (decOf (frameBytes bs)).data else (decOf (frameBytes bs)).data ++ [0x00#8],
        (frameBytes bs).length, 0x01#8⟩ := by
    rw [decOf_malformed hshaped [], decOf_frame hframe, zeroAfter_frame hne, hzero]
    split <;> simp
  rw [← hdelim]
  exact execDec_of_admitted ha

/-- R137: DEC sets no flag exactly for a well-formed frame. -/
theorem decOf_noFlags_iff (f : Bytes) :
    (decOf f).flags = 0x00#8 ↔ ∃ bs, isFrame bs = true ∧ f = frameBytes bs := by
  constructor
  · intro hflags
    obtain ⟨bs, hshaped, rfl | ⟨rest, rfl⟩ | ⟨v, d, hv, hd, rfl⟩⟩ := bytes_cases f
    · have hne : bs ≠ [] := by
        rintro rfl
        simp [decOf_nil] at hflags
      have hzero : hasZeroData bs = false := by simpa [decOf_frameBytes hne hshaped] using hflags
      exact ⟨bs, isFrame_iff.2 ⟨hne, forall_complete_iff.2 ⟨hshaped, hzero⟩⟩, rfl⟩
    · rw [decOf_malformed hshaped] at hflags
      split at hflags <;> cases hflags
    · rw [decOf_truncated hshaped hv hd] at hflags
      split at hflags <;> cases hflags
  · rintro ⟨bs, hframe, rfl⟩
    rw [decOf_frame hframe]

/-- Settles O27: without a flag the frame is well-formed, and DEC reads such a frame whole. -/
theorem noFlagsIffWellFormed : Obligations.NoFlagsIffWellFormed := by
  intro s f ha
  refine ⟨_, decOf f, execDec_of_admitted ha, rfl, decOf_noFlags_iff f, fun hflags => ?_⟩
  obtain ⟨bs, hframe, rfl⟩ := (decOf_noFlags_iff f).1 hflags
  rw [decOf_frame hframe]

/-! ### The length of the output -/

/-- R132, R136: a data byte appends itself. -/
theorem decData_out_length (r : DecRegs) (b : Byte) : (decData r b).out.length = r.out.length + 1 := by
  simp [decData, bufAppend]

/-- R136: an overhead byte appends at most one implied zero. -/
theorem decOverhead_out_length (r : DecRegs) (b : Byte) : (decOverhead r b).out.length ≤ r.out.length + 1 := by
  by_cases h : r.ovh = sentinel <;> simp [decOverhead, bufAppend, h]

/-- R133: opening a block appends nothing. -/
theorem decBlockOpened_out (r : DecRegs) : (decBlockOpened r).out = r.out := rfl

/-- R136: each byte the scan reads appends at most one byte. -/
theorem decLoop_out_length (f : Bytes) (r : DecRegs) : (decLoop f r).out.length ≤ r.out.length + f.length := by
  induction f generalizing r with
  | nil =>
    rw [decLoop, decEnd]
    split <;> exact Nat.le_refl _
  | cons b f ih =>
    have hovh := decOverhead_out_length r b
    rw [decLoop, List.length_cons]
    split
    · have hrest := ih (decData r b)
      rw [decData_out_length] at hrest
      omega
    · split
      · simp only [decMalformed]
        omega
      · have hrest := ih (decBlockOpened (decOverhead r b))
        rw [decBlockOpened_out] at hrest
        omega

/-- R136: DEC's data is no longer than its frame. -/
theorem decOf_data_length (f : Bytes) : (decOf f).data.length ≤ f.length :=
  (decLoop_out_length f (decInit f)).trans (by simp [decInit])

/-- Settles O26: the scan starts with no output. -/
theorem decOutputBound : Obligations.DecOutputBound := fun _ f ha =>
  ⟨_, decOf f, execDec_of_admitted ha, rfl, decOf_data_length f⟩

/-! ### A saturated end -/

/-- R76: blocks of the announced shape are determined by their bytes. -/
theorem frameBytes_inj {bs bs' : List Block} (h : bs.all Block.shaped = true) (h' : bs'.all Block.shaped = true)
    (he : frameBytes bs = frameBytes bs') : bs = bs' := by
  have hp := parseBlocks_frameBytes h (Nat.le_refl _)
  rw [he, parseBlocks_frameBytes h' (Nat.le_refl _)] at hp
  exact (Option.some.inj hp).symm

/-- R138: DEC of a frame that ends saturated and its `[0x01]` tail: the payload of the frame alone. -/
theorem decOf_frame_tail {bs : List Block} (hframe : isFrame bs = true) (hsat : endsSaturated bs = true) :
    decOf (frameBytes bs ++ [0x01#8]) = ⟨0x00#8, framePayload bs, (frameBytes bs).length + 1, 0x00#8⟩ := by
  obtain ⟨hne, hcomplete⟩ := isFrame_iff.1 hframe
  have htail : isFrame (bs ++ [⟨0x01#8, []⟩]) = true :=
    isFrame_iff.2 ⟨by simp, by simpa [or_imp, forall_and] using ⟨hcomplete, by decide⟩⟩
  have hpayload : framePayload (bs ++ [⟨0x01#8, []⟩]) = framePayload bs := by
    simp [framePayload_append, zeroAfter_frame hne, hsat]
  simpa [hpayload] using decOf_frame htail

/-- R75, R138: ENC answers with no frame that ends saturated. -/
theorem Answers.enc_data_ne {s t : State} {p : Bytes} {r : Response} {bs : List Block} (h : Answers s (.enc p) t)
    (hr : t.outPort = s.outPort ++ [.response r]) (hframe : isFrame bs = true) (hsat : endsSaturated bs = true) :
    r.data ≠ frameBytes bs := by
  have hshaped {bs' : List Block} (h' : isFrame bs' = true) : bs'.all Block.shaped = true :=
    (forall_complete_iff.1 (isFrame_iff.1 h').2).1
  cases h with
  | refused =>
    obtain rfl : errorResponse _ = r := by simpa using hr
    obtain ⟨hne, -⟩ := isFrame_iff.1 hframe
    cases bs with
    | nil => exact absurd rfl hne
    | cons b bs => simp [errorResponse]
  | enc ha hf =>
    rw [encData_eq_encClosed] at hf
    cases hf
    obtain rfl : encResponse (encClosed p) = r := by simpa using hr
    obtain ⟨hencFrame, hencEnd⟩ := encBlocks_isFrame p
    intro he
    obtain rfl : encBlocks p = bs := frameBytes_inj (hshaped hencFrame) (hshaped hframe) he
    rw [hencEnd] at hsat
    cases hsat

/-- Settles O28: the tail is a complete empty block behind a saturated one. -/
theorem saturatedTailOptional : Obligations.SaturatedTailOptional := by
  intro s bs b hframe hb ha
  have hsat : endsSaturated (bs ++ [b]) = true := by simp [endsSaturated, Block.saturated, hb]
  refine ⟨?_, ?_, fun p t r hexec hr => (exec_eq_next_iff.1 hexec).enc_data_ne hr hframe hsat⟩
  · rw [← decOf_frame hframe]
    exact execDec_of_admitted (tooLong_mono (by simp) ha)
  · rw [← decOf_frame_tail hframe hsat]
    exact execDec_of_admitted ha

end Sys2Proof.Machine
end

section
/-! PROOF. One received byte, seen from the ports and by its kind: FEED of one byte, the append with room and
without, and the three kinds of byte (spec 42_streaming_decoder.md R161 to R167, R175). -/

namespace Sys2Proof.Machine

/-! ### FEED of one byte -/

/-- R170: FEED of a chunk whose steps all answer, with its response written out. -/
theorem exec_feed_of_run {s : State} {d : Bytes} {r : SdRegs} {es : List Event} (ha : tooLong s.config d = false)
    (hr : sdRun s.config s.sd d = some (r, es)) :
    exec (.feed d) s = .next { s with
      sd := r, feed := none
      outPort := s.outPort ++ es.map .event ++ [.response ⟨0x00#8, [], es.length, 0x00#8⟩] } :=
  execFeed_of_run ha hr

/-- R160: the run over one byte is its step. -/
theorem sdRun_single {c : Config} {r r' : SdRegs} {b : Byte} {e : Option Event} (h : sdStep c r b = some (r', e)) :
    sdRun c r [b] = some (r', e.toList) :=
  sdRun_cons.2 ⟨r', e, [], h, rfl, by simp⟩

/-- R170: FEED of a byte that emits nothing. -/
theorem exec_feed_byte_silent {s : State} {b : Byte} {r : SdRegs} (ha : tooLong s.config [b] = false)
    (h : sdStep s.config s.sd b = some (r, none)) :
    exec (.feed [b]) s = .next { s with
      sd := r, feed := none, outPort := s.outPort ++ [.response ⟨0x00#8, [], 0, 0x00#8⟩] } := by
  simpa using exec_feed_of_run ha (sdRun_single h)

/-- R50, R170: FEED of a byte that emits an event: the event stands before the response, which counts it. -/
theorem exec_feed_byte_event {s : State} {b : Byte} {r : SdRegs} {e : Event} (ha : tooLong s.config [b] = false)
    (h : sdStep s.config s.sd b = some (r, some e)) :
    exec (.feed [b]) s = .next { s with
      sd := r, feed := none, outPort := s.outPort ++ [.event e, .response ⟨0x00#8, [], 1, 0x00#8⟩] } := by
  simpa using exec_feed_of_run ha (sdRun_single h)

/-! ### The append -/

/-- R165: an append with room. -/
theorem sdAppend_of_room {c : Config} {r : SdRegs} (h : ∀ cap, c.accCap = some cap → r.len < cap) (v : Byte) :
    sdAppend c r v = { r with acc := Memory.write r.acc r.len v, len := r.len + 1 } :=
  if_pos (hasRoom_iff.2 h)

/-- R165: an append beyond the capacity. -/
theorem sdAppend_of_full {c : Config} {r : SdRegs} {cap : Nat} (hc : c.accCap = some cap) (h : cap ≤ r.len) (v : Byte) :
    sdAppend c r v = { r with ovf := true } := by
  rw [sdAppend, hasRoom_eq_false_iff.2 ⟨cap, hc, h⟩]
  rfl

/-- R165: what an append with room stores, and that every other byte and `SD.OVF` stand. -/
theorem sdAppend_stores {c : Config} {r : SdRegs} (h : ∀ cap, c.accCap = some cap → r.len < cap) (v : Byte) :
    (sdAppend c r v).len = r.len + 1 ∧ (sdAppend c r v).ovf = r.ovf ∧
      Memory.read (sdAppend c r v).acc r.len = some v ∧
      ∀ a, a ≠ r.len → Memory.read (sdAppend c r v).acc a = Memory.read r.acc a := by
  rw [sdAppend_of_room h v]
  exact ⟨rfl, rfl, Memory.read_write_same .., fun _ ha => Memory.read_write_other _ _ ha⟩

/-- Settles O35: a write at the cursor leaves the bytes below it and puts its byte behind them. -/
theorem appendThenRemoveIsNothing : Obligations.AppendThenRemoveIsNothing := by
  intro c r p hroom hp
  rw [sdAppend_of_room hroom]
  refine ⟨rfl, ?_, Memory.slice_write_end _ hp⟩
  rw [← hp]
  exact Memory.slice_congr fun a _ ha => Memory.read_write_other _ _ (Nat.ne_of_lt (by simpa using ha))

/-! ### A byte of each kind -/

/-- R161: the step of a data byte. -/
theorem sdStep_data {r : SdRegs} {b : Byte} (hc : r.cpy ≠ 0x00#8) (hb : b ≠ 0x00#8) (c : Config) :
    sdStep c r b = some (dataByte c r b, none) := by
  simp [sdStep, hc, hb]

/-- R163: the step of an overhead byte. -/
theorem sdStep_overhead {r : SdRegs} {b : Byte} (hc : r.cpy = 0x00#8) (hb : b ≠ 0x00#8) (c : Config) :
    sdStep c r b = some (overheadByte c r b, none) := by
  simp [sdStep, hc, hb]

/-- R162, R164: the step of a delimiter with a frame in flight whose snapshot is `p`. -/
theorem sdStep_zero_of_snapshot {r : SdRegs} {p : Bytes} (hi : idle r = false) (hp : sdSnapshot r = some p)
    (c : Config) : sdStep c r 0x00#8 = some (SdRegs.reset, some (frameEvent r p)) := by
  obtain ⟨r', e, hstep⟩ := sdStep_isSome (c := c) (b := 0x00#8) hp
  obtain ⟨rfl, q, hq, rfl⟩ := sdStep_zero_of_not_idle hi hstep
  obtain rfl : p = q := Option.some.inj (hp.symm.trans hq)
  exact hstep

/-- R163: an overhead byte after an unsaturated block appends the implied zero. -/
theorem overheadByte_of_unsaturated {r : SdRegs} (h : r.ovh ≠ 0xFF#8) (c : Config) (b : Byte) :
    overheadByte c r b = { sdAppend c r 0x00#8 with ovh := b, cpy := b - 1#8 } := by
  rw [overheadByte, if_pos h]

/-- R163: an overhead byte after the sentinel appends nothing. -/
theorem overheadByte_of_sentinel {r : SdRegs} (h : r.ovh = 0xFF#8) (c : Config) (b : Byte) :
    overheadByte c r b = { r with ovh := b, cpy := b - 1#8 } := by
  rw [overheadByte, if_neg (not_not.2 h)]

/-- Settles O31: a data byte is an append and a count down. -/
theorem dataByteAppends : Obligations.DataByteAppends := by
  intro s b hc hb ha
  have hcpy : (dataByte s.config s.sd b).cpy = s.sd.cpy - 1#8 := by simp [dataByte]
  refine ⟨_, exec_feed_byte_silent ha (sdStep_data hc hb _), rfl, sdAppend_ovh .., hcpy,
    fun hroom => sdAppend_stores hroom b, fun cap hcap hfull => ?_⟩
  simp [dataByte, sdAppend_of_full hcap hfull]

/-- Settles O32: an overhead byte is an append of the implied zero, unless after the sentinel, and a load. -/
theorem overheadByteOpensBlock : Obligations.OverheadByteOpensBlock := by
  intro s b hc hb ha
  refine ⟨_, exec_feed_byte_silent ha (sdStep_overhead hc hb _), rfl, rfl, rfl, (toNat_sub_one_of_ne_zero hb).2,
    fun ho => overheadByte_of_sentinel ho _ b, fun ho hroom => ?_, fun ho cap hcap hfull => ?_⟩
  · simpa [overheadByte_of_unsaturated ho] using sdAppend_stores hroom 0x00#8
  · simp [overheadByte_of_unsaturated ho, sdAppend_of_full hcap hfull]

/-- Settles O33: an idle decoder stands, and a frame in flight ends with its event. -/
theorem delimiterEndsFrame : Obligations.DelimiterEndsFrame := by
  intro s hc ha
  have hevent {p : Bytes} (hi : idle s.sd = false) (hp : Memory.slice s.sd.acc 0 s.sd.len = some p) :=
    exec_feed_byte_event ha (sdStep_zero_of_snapshot hi hp s.config)
  refine ⟨fun hi => exec_feed_byte_silent ha (sdStep_zero_of_idle hi), fun p hi ho hp => ?_, fun p hi ho hp => ?_⟩
  · simpa [frameEvent, hc, ho, causeOvf, SdRegs.reset] using hevent hi hp
  · simpa [frameEvent, hc, ho, causeOvf, SdRegs.reset] using hevent hi hp

/-- R164, R203: the cause of a delimiter inside a block, as a number. -/
theorem dibCause_eq (r : SdRegs) : dibCause r = if r.ovf then 0x03#8 else 0x01#8 := by
  cases h : r.ovf <;> simp [dibCause, h, causeDib, causeOvf]

/-- Settles O34: inside a block the decoder is not idle, so the delimiter ends the frame with its event. -/
theorem delimiterInsideBlock : Obligations.DelimiterInsideBlock := by
  intro s p hc ha hp
  have hi : idle s.sd = false := by simp [idle, hc]
  simpa [frameEvent, hc, dibCause_eq, SdRegs.reset] using
    exec_feed_byte_event ha (sdStep_zero_of_snapshot hi hp s.config)

/-- R175: a byte with an event leaves the reset values. -/
theorem reset_of_sdStep_event {c : Config} {r r' : SdRegs} {b : Byte} {e : Event}
    (h : sdStep c r b = some (r', some e)) : r' = SdRegs.reset := by
  rcases sdStep_grows_or_resets h with ⟨he, -⟩ | ⟨-, hr⟩
  · cases he
  · exact hr

/-- Settles O36: a refused FEED adds no event, and an admitted one takes its byte's step. -/
theorem resetAfterEveryEvent : Obligations.ResetAfterEveryEvent := by
  refine ⟨fun _ _ _ _ _ h => reset_of_sdStep_event h, fun s t b h hev => ?_⟩
  cases exec_eq_next_iff.1 h with
  | refused _ => exact absurd (events_respond ..) hev
  | @feed _ r es _ hr =>
    obtain ⟨r₁, e, es₁, hstep, hrun, rfl⟩ := sdRun_cons.1 hr
    obtain ⟨rfl, rfl⟩ : r₁ = r ∧ es₁ = [] := by simpa [sdRun, eq_comm] using hrun
    cases e with
    | none => exact absurd (by simp [State.events]) hev
    | some e => exact reset_of_sdStep_event hstep

end Sys2Proof.Machine
end

section
/-! PROOF. SRESET and SSTAT: what they report and what they leave (spec 42_streaming_decoder.md R181, R185). -/

namespace Sys2Proof.Machine

/-- R34: the stream flags: bit 1 for a decoder that is not idle, bit 0 for `SD.OVF`. -/
theorem streamFlags_eq (r : SdRegs) :
    streamFlags r = (if idle r then 0x00#8 else 0x02#8) + (if r.ovf then 0x01#8 else 0x00#8) := by
  cases hi : idle r <;> cases ho : r.ovf <;> simp [streamFlags, inflight, hi, ho, bit]

/-- Settles O47: the response is from before the reset. -/
theorem sresetReportsAndResets : Obligations.SresetReportsAndResets := by
  intro s
  rw [← streamFlags_eq]
  exact execSreset_nil s

/-- Settles O48: the response is the only change. -/
theorem sstatReports : Obligations.SstatReports := by
  intro s
  rw [← streamFlags_eq]
  exact execSstat_nil s

end Sys2Proof.Machine
end

section
/-! PROOF. FEED of whole chunks: it is the run of the per-byte step (spec 42_streaming_decoder.md R170, R171), and
where a byte sequence is split does not matter (R172). -/

namespace Sys2Proof.Machine

/-- Settles O39: the run over no byte answers in every state. -/
theorem emptyChunkIsNoOp : Obligations.EmptyChunkIsNoOp := by
  intro s
  simpa using exec_feed_of_run (tooLong_nil s.config) (rfl : sdRun s.config s.sd [] = some (s.sd, []))

/-- Settles O40: from good registers the run answers and keeps them good. -/
theorem feedRunsEveryByte : Obligations.FeedRunsEveryByte := by
  intro s d hs ha
  obtain ⟨r, es, hrun, hinv⟩ := hs.sdRun_keeps d
  exact ⟨r, es, hrun, hinv, exec_feed_of_run ha hrun⟩

/-- R172: a run over two chunks answers exactly when the first answers and the second does from there. -/
theorem sdRun_append_eq_some {c : Config} {a b : Bytes} {r r' : SdRegs} {es : List Event} :
    sdRun c r (a ++ b) = some (r', es) ↔
      ∃ r₁ es₁ es₂, sdRun c r a = some (r₁, es₁) ∧ sdRun c r₁ b = some (r', es₂) ∧ es = es₁ ++ es₂ := by
  simp only [sdRun_append, Option.bind_eq_some_iff, Option.map_eq_some_iff, Prod.exists, Prod.mk.injEq]
  constructor
  · rintro ⟨r₁, es₁, ha, _, es₂, hb, rfl, rfl⟩
    exact ⟨r₁, es₁, es₂, ha, hb, rfl⟩
  · rintro ⟨r₁, es₁, es₂, ha, hb, rfl⟩
    exact ⟨r₁, es₁, ha, r', es₂, hb, rfl, rfl⟩

/-- R170: what FEED of a chunk whose steps all answer leaves in the registers and puts on the two ports. -/
theorem exec_feed_views {s : State} {d : Bytes} {r : SdRegs} {es : List Event} (ha : tooLong s.config d = false)
    (hr : sdRun s.config s.sd d = some (r, es)) :
    ∃ t, exec (.feed d) s = .next t ∧ t.config = s.config ∧ t.sd = r ∧ t.events = s.events ++ es ∧
      t.responses = s.responses ++ [⟨0x00#8, [], es.length, 0x00#8⟩] :=
  ⟨_, exec_feed_of_run ha hr, rfl, rfl, events_of_outPort rfl, responses_of_outPort rfl⟩

/-- R172: FEEDs of the chunks of a byte sequence whose run answers: the registers and the events of that run, and
one response for each chunk, whose counts sum to the number of the events. -/
theorem runCommands_feeds {cs : List Bytes} {s : State} {r : SdRegs} {es : List Event}
    (ha : ∀ c ∈ cs, tooLong s.config c = false) (hr : sdRun s.config s.sd cs.flatten = some (r, es)) :
    ∃ t rs, runCommands (cs.map .feed) s = .next t ∧ t.sd = r ∧ t.events = s.events ++ es ∧
      t.responses = s.responses ++ rs ∧ rs.length = cs.length ∧ (rs.map Response.count).sum = es.length := by
  induction cs generalizing s es with
  | nil =>
    obtain ⟨rfl, rfl⟩ : s.sd = r ∧ [] = es := by simpa [sdRun] using hr
    exact ⟨s, [], rfl, rfl, by simp, by simp, rfl, rfl⟩
  | cons c cs ih =>
    obtain ⟨r₁, es₁, es₂, hfirst, hrest, rfl⟩ := sdRun_append_eq_some.1 hr
    obtain ⟨hac, hacs⟩ := List.forall_mem_cons.1 ha
    obtain ⟨u, hu, hconfig, hsd, hev, hresp⟩ := exec_feed_views hac hfirst
    rw [← hconfig] at hacs hrest
    rw [← hsd] at hrest
    obtain ⟨t, rs, ht, htsd, htev, htresp, hlen, hsum⟩ := ih hacs hrest
    exact ⟨t, ⟨0x00#8, [], es₁.length, 0x00#8⟩ :: rs, runCommands_cons.2 ⟨u, hu, ht⟩, htsd, by simp [htev, hev],
      by simp [htresp, hresp], by simp [hlen], by simp [hsum]⟩

/-- Settles O42: both are the run over the whole sequence. -/
theorem chunkBoundaryInvariance : Obligations.ChunkBoundaryInvariance := by
  intro s cs hs ha
  obtain ⟨r, es, hrun, -⟩ := hs.sdRun_keeps cs.flatten
  have hchunk : ∀ c ∈ cs, tooLong s.config c = false := fun c hc =>
    tooLong_mono (List.sublist_flatten_of_mem hc).length_le ha
  obtain ⟨t, rs, ht, htsd, htev, htresp, hlen, hsum⟩ := runCommands_feeds hchunk hrun
  obtain ⟨u, hu, -, husd, huev, huresp⟩ := exec_feed_views ha hrun
  exact ⟨t, u, rs, _, ht, hu, htsd.trans husd.symm, htev.trans huev.symm, htresp, hlen, huresp, hsum⟩

end Sys2Proof.Machine
end

section
/-! PROOF. Streams of frames from the reset values: a frame and its delimiter emit one event (spec
42_streaming_decoder.md R173, R174), and so does each frame of a stream, in order (R176). -/

namespace Sys2Proof.Machine

/-- R161, R163: after a byte that is no delimiter the decoder is not idle. -/
theorem idle_of_sdStep_ne_zero {c : Config} {r r' : SdRegs} {b : Byte} {e : Option Event} (hb : b ≠ 0x00#8)
    (h : sdStep c r b = some (r', e)) : idle r' = false :=
  have ⟨_, _, _, hnonzero, _⟩ := idleExactlyAtReset
  (hnonzero c r r' b e h hb).1

/-- R161, R163: nor is it after a run of such bytes. -/
theorem idle_of_sdRun_ne_zero {c : Config} {r r' : SdRegs} {b : Byte} {d : Bytes} {es : List Event}
    (hd : ∀ x ∈ b :: d, x ≠ 0x00#8) (h : sdRun c r (b :: d) = some (r', es)) : idle r' = false := by
  induction d generalizing r b es with
  | nil =>
    obtain ⟨r₁, e, es₁, hstep, hrun, -⟩ := sdRun_cons.1 h
    obtain ⟨rfl, -⟩ : r₁ = r' ∧ [] = es₁ := by simpa [sdRun] using hrun
    exact idle_of_sdStep_ne_zero (hd b (by simp)) hstep
  | cons x d ih =>
    obtain ⟨r₁, e, es₁, -, hrun, -⟩ := sdRun_cons.1 h
    exact ih (List.forall_mem_cons.1 hd).2 hrun

/-- R25, R165: the capacity keeps the whole of a payload that fits it. -/
theorem kept_of_fits {c : Config} {q : Bytes} (h : ∀ cap, c.accCap = some cap → q.length ≤ cap) : kept c q = q := by
  unfold kept
  split
  · rfl
  · next cap hc => exact List.take_of_length_le (h cap hc)

/-- R162: the event of the delimiter behind a whole frame whose payload is `q`: what `SD.ACC` keeps of it, in a
FRAME or, when that is not all of it, in an FERR. -/
def delimitedEvent (c : Config) (q : Bytes) : Event :=
  if (kept c q).length < q.length then .ferr causeOvf (kept c q) else .frame (kept c q)

theorem delimitedEvent_of_fits {c : Config} {q : Bytes} (h : ∀ cap, c.accCap = some cap → q.length ≤ cap) :
    delimitedEvent c q = .frame q := by
  simp [delimitedEvent, kept_of_fits h]

theorem delimitedEvent_of_overflow {c : Config} {q : Bytes} {cap : Nat} (hc : c.accCap = some cap)
    (h : cap < q.length) : delimitedEvent c q = .ferr 0x02#8 (q.take cap) := by
  simp [delimitedEvent, kept, hc, h, causeOvf]

/-- R162, R173: the run over a well-formed frame and its delimiter, from the reset values. -/
theorem sdRun_wireUnit (c : Config) {bs : List Block} (h : isFrame bs = true) :
    sdRun c SdRegs.reset (frameBytes bs ++ [0x00#8]) =
      some (SdRegs.reset, [delimitedEvent c (framePayload bs)]) := by
  obtain ⟨hne, hcomplete⟩ := isFrame_iff.1 h
  obtain ⟨r, hrun, hstored, -, hcpy⟩ :=
    sdRun_blocks c bs SdRegs.reset [] (List.all_eq_true.2 hcomplete) rfl (stored_reset c)
  obtain ⟨-, hsnap, hovf⟩ : Stored c r (framePayload bs) := by
    simpa [hne, zeroBefore, SdRegs.reset] using hstored
  have hidle : idle r = false := by
    obtain ⟨b, bs, rfl⟩ := List.exists_cons_of_ne_nil hne
    exact idle_of_sdRun_ne_zero (frameBytes_ne_zero hcomplete) hrun
  have hevent : frameEvent r (kept c (framePayload bs)) = delimitedEvent c (framePayload bs) := by
    simp [frameEvent, delimitedEvent, hcpy, hovf]
  refine sdRun_append_eq_some.2 ⟨r, [], _, hrun, sdRun_single (sdStep_zero_of_snapshot hidle hsnap c), ?_⟩
  rw [hevent]
  rfl

/-- R105, R173: the run over ENC's frame of a payload and its delimiter, from the reset values. -/
theorem sdRun_encoded (c : Config) (p : Bytes) :
    sdRun c SdRegs.reset (encClosed p ++ [0x00#8]) = some (SdRegs.reset, [delimitedEvent c p]) := by
  rw [encClosed, sdRun_wireUnit c (encBlocks_isFrame p).1, framePayload_encBlocks]

/-- Settles O43: the chunks run as the whole frame and its delimiter do. -/
theorem streamRoundTrip : Obligations.StreamRoundTrip := by
  intro s p cs hs hcs ha
  obtain ⟨t, -, ht, htsd, htev, -⟩ := runCommands_feeds ha (by rw [hs, hcs]; exact sdRun_encoded s.config p)
  refine ⟨t, ht, htsd, fun hfits => ?_, fun cap hcap hover => ?_⟩
  · rw [htev, delimitedEvent_of_fits hfits]
  · rw [htev, delimitedEvent_of_overflow hcap hover]

/-- Settles O44: DEC's data and the stream's FRAME are both the frame's payload. -/
theorem streamAgreesWithDec : Obligations.StreamAgreesWithDec := by
  intro s s' bs hframe hs ha ha' hfits
  refine ⟨_, decOf (frameBytes bs), execDec_of_admitted ha', rfl, ?_⟩
  have hrun : sdRun s.config s.sd (frameBytes bs ++ [0x00#8]) = some (s.sd, [.frame (framePayload bs)]) := by
    rw [hs, sdRun_wireUnit _ hframe, delimitedEvent_of_fits hfits]
  simpa [decOf_frame hframe] using exec_feed_of_run ha hrun

/-- R176: delimiters at the reset values emit nothing. -/
theorem sdRun_zeros (c : Config) (k : Nat) : sdRun c SdRegs.reset (List.replicate k 0x00#8) = some (SdRegs.reset, []) := by
  induction k with
  | zero => rfl
  | succ k ih => exact sdRun_cons.2 ⟨_, none, [], sdStep_zero_of_idle rfl, ih, rfl⟩

/-- R176: the run over encoded frames, each with its delimiter and extra zeros, from the reset values. -/
theorem sdRun_stream (c : Config) (ps : List (Bytes × Nat)) :
    sdRun c SdRegs.reset (ps.flatMap fun x => encClosed x.1 ++ [0x00#8] ++ List.replicate x.2 0x00#8) =
      some (SdRegs.reset, ps.map fun x => delimitedEvent c x.1) := by
  induction ps with
  | nil => rfl
  | cons x ps ih =>
    have hframe := sdRun_append_eq_some.2 ⟨_, _, _, sdRun_encoded c x.1, sdRun_zeros c x.2, rfl⟩
    exact sdRun_append_eq_some.2 ⟨_, _, _, hframe, ih, rfl⟩

/-- Settles O45: the chunks run as the zeros before the first frame and then the frames do. -/
theorem streamOfFrames : Obligations.StreamOfFrames := by
  intro s k ps cs hs hcs ha hfits
  have hrun : sdRun s.config s.sd cs.flatten = some (SdRegs.reset, ps.map fun x => delimitedEvent s.config x.1) := by
    rw [hs, hcs]
    exact sdRun_append_eq_some.2 ⟨_, _, _, sdRun_zeros _ k, sdRun_stream _ ps, rfl⟩
  obtain ⟨t, -, ht, htsd, htev, -⟩ := runCommands_feeds ha hrun
  refine ⟨t, ht, htsd, ?_⟩
  rw [htev, List.map_congr_left fun x hx => delimitedEvent_of_fits (hfits x hx)]

end Sys2Proof.Machine
end

section
/-! PROOF. Exceptions and progress: what a refusal leaves, what ENC and DEC depend on, waiting, power loss and
runs of any length (spec 60_exceptions.md R201, R209, R213, R215). -/

namespace Sys2Proof.Machine

/-- R201: a command that answers with a status other than `OK` has failed a check, and that refusal is its whole
effect. -/
theorem Answers.eq_raiseError {s t : State} {i : Instr} {r : Response} (h : Answers s i t)
    (hlast : t.outPort.getLast? = some (.response r)) (hr : r.status ≠ statusOk) : t = raiseError r.status s := by
  obtain ⟨r', hlast', hstatus⟩ := h.status
  obtain rfl : r' = r := by simpa [hlast'] using hlast
  cases ha : admission i.format s.config i.operand with
  | none => exact absurd (by simp [hstatus, ha]) hr
  | some code =>
    obtain rfl : r'.status = code := by simpa [ha] using hstatus
    exact h.unique (.refused ha)

/-- Settles O11: the only answer with such a status is a refusal. -/
theorem refusedCommandChangesNothing : Obligations.RefusedCommandChangesNothing :=
  fun _ _ _ _ h hlast hr => (exec_eq_next_iff.1 h).eq_raiseError hlast hr

/-- R213: what ENC or DEC answers in one core it answers in any other with the same parameters: the checks read
the parameters and the operand, and the response is a function of the operand. -/
theorem Answers.in_other_core {s s' t : State} {i : Instr} (h : Answers s i t)
    (hi : (∃ d, i = .enc d) ∨ ∃ d, i = .dec d) (hc : s.config = s'.config) :
    ∃ t' r, Answers s' i t' ∧ t.outPort = s.outPort ++ [.response r] ∧ t'.outPort = s'.outPort ++ [.response r] := by
  cases h with
  | refused ha => exact ⟨_, _, .refused (hc ▸ ha), rfl, rfl⟩
  | enc ha hf => exact ⟨_, _, .enc (hc ▸ ha) hf, rfl, rfl⟩
  | dec ha => exact ⟨_, _, .dec (hc ▸ ha), rfl, rfl⟩
  | feed _ _ => simp at hi
  | sreset => simp at hi
  | sstat => simp at hi

/-- Settles O51: the other core's answer is its execution. -/
theorem encDecIndependentOfState : Obligations.EncDecIndependentOfState := by
  intro s s' t i hi hc h
  obtain ⟨t', r, ha, hout, hout'⟩ := (exec_eq_next_iff.1 h).in_other_core hi hc
  exact ⟨t', r, exec_eq_next_iff.2 ha, hout, hout'⟩

/-- Settles O57, by induction on the number of steps: each step answers a good state, from which the others go
through. -/
theorem coreNeverStops : Obligations.CoreNeverStops := by
  intro n
  induction n with
  | zero => exact fun s _ => ⟨s, rfl⟩
  | succ n ih =>
    intro s hs
    obtain ⟨u, hstep, hu⟩ := stepKeepsInvariant s hs
    obtain ⟨t, ht⟩ := ih u hu
    exact ⟨t, (run_of_step hstep).trans ht⟩

/-- Settles O4: nothing is fetched from an empty port. -/
theorem emptyPortWaits : Obligations.EmptyPortWaits := fun _ => step_of_empty

/-- Settles O6: a power cycle is power-on with the core's own parameters, and every power-on state is good. -/
theorem powerCycleRestoresPowerOn : Obligations.PowerCycleRestoresPowerOn := fun s =>
  ⟨rfl, powerCycle_config s, inv_powerOn s.config⟩

end Sys2Proof.Machine
end

section
/-! PROOF. Reset and hazards: the power-on values, what takes a decoder that is not idle to the idle state, and a
delimiter left out between two frames (spec 70_reset_and_hazards.md R230, R231, R244). -/

namespace Sys2Proof.Machine

/-! ### Power-on -/

/-- Settles O5: the registers and the ports hold their power-on values, and every command answers from a good
state. -/
theorem powerOnState : Obligations.PowerOnState := fun c =>
  ⟨rfl, rfl, rfl, rfl, Memory.read_nil, rfl, rfl, rfl, rfl, rfl, rfl, rfl, (inv_powerOn c).exec_next⟩

/-! ### Leaving a frame in flight -/

/-- R27, R230: a byte without an event does not make the decoder idle. -/
theorem not_idle_of_sdStep_silent {c : Config} {r r' : SdRegs} {b : Byte} (hi : idle r = false)
    (h : sdStep c r b = some (r', none)) : idle r' = false := by
  by_cases hb : b = 0x00#8
  · subst hb
    obtain ⟨-, p, -, he⟩ := sdStep_zero_of_not_idle hi h
    cases he
  · exact idle_of_sdStep_ne_zero hb h

/-- R27, R230: nor does a run without an event. -/
theorem not_idle_of_sdRun_silent {c : Config} {r r' : SdRegs} {d : Bytes} (hi : idle r = false)
    (h : sdRun c r d = some (r', [])) : idle r' = false := by
  induction d generalizing r with
  | nil =>
    obtain rfl : r = r' := by simpa [sdRun] using h
    exact hi
  | cons b d ih =>
    obtain ⟨r₁, e, es, hstep, hrun, hes⟩ := sdRun_cons.1 h
    obtain ⟨he, rfl⟩ := List.append_eq_nil_iff.1 hes.symm
    obtain rfl := Option.toList_eq_nil_iff.1 he
    exact ih (not_idle_of_sdStep_silent hi hstep) hrun

/-- Settles O52: every command but SRESET and FEED keeps the registers, and a FEED without an event leaves the
decoder not idle. -/
theorem resetOnlyBySresetOrEvent : Obligations.ResetOnlyBySresetOrEvent := by
  intro s t i h hs ht
  have hchanged : idle t.sd ≠ idle s.sd := by simp [hs, ht]
  cases exec_eq_next_iff.1 h with
  | sreset => exact .inl rfl
  | @feed d r es _ hr =>
    refine .inr ⟨⟨d, rfl⟩, fun hev => ?_⟩
    obtain rfl : es = [] := by
      rw [events_of_outPort (s := s) rfl] at hev
      simpa using hev
    exact hchanged ((not_idle_of_sdRun_silent hs hr).trans hs.symm)
  | refused _ => exact absurd rfl hchanged
  | enc _ _ => exact absurd rfl hchanged
  | dec _ => exact absurd rfl hchanged
  | sstat => exact absurd rfl hchanged

/-! ### Two frames without the delimiter between them -/

/-- R71: one frame behind another is a frame. -/
theorem isFrame_append {bs bs' : List Block} (h : isFrame bs = true) (h' : isFrame bs' = true) :
    isFrame (bs ++ bs') = true := by
  obtain ⟨hne, hcomplete⟩ := isFrame_iff.1 h
  obtain ⟨-, hcomplete'⟩ := isFrame_iff.1 h'
  exact isFrame_iff.2 ⟨List.append_ne_nil_of_left_ne_nil hne _, List.forall_mem_append.2 ⟨hcomplete, hcomplete'⟩⟩

/-- R73: blocks before others imply the zero of their last one before the others' payload. -/
theorem framePayload_append_blocks (bs : List Block) {bs' : List Block} (h : bs' ≠ []) :
    framePayload (bs ++ bs') = framePayload bs ++ zeroAfter bs ++ framePayload bs' := by
  induction bs with
  | nil => rfl
  | cons b bs ih =>
    rw [List.cons_append, framePayload_cons (List.append_ne_nil_of_right_ne_nil bs h), ih]
    cases bs with
    | nil => simp [framePayload, zeroAfter]
    | cons b' bs => simp [framePayload_cons, zeroAfter, List.getLast?_cons_cons]

/-- R75, R244: no ENC frame ends saturated, so the blocks of two of them stand for the payloads joined by a zero. -/
theorem framePayload_encBlocks_append (p q : Bytes) :
    framePayload (encBlocks p ++ encBlocks q) = p ++ [0x00#8] ++ q := by
  rw [framePayload_append_blocks _ (encBlocks_ne_nil q), zeroAfter_frame (encBlocks_ne_nil p),
    (encBlocks_isFrame p).2, framePayload_encBlocks, framePayload_encBlocks]
  rfl

/-- Settles O46: the two encoded frames are one frame, whose delimiter emits the joined payloads. -/
theorem missingDelimiterJoinsPayloads : Obligations.MissingDelimiterJoinsPayloads := by
  intro s p q hs ha hfits
  have hframe : isFrame (encBlocks p ++ encBlocks q) = true :=
    isFrame_append (encBlocks_isFrame p).1 (encBlocks_isFrame q).1
  have hrun : sdRun s.config s.sd (encClosed p ++ encClosed q ++ [0x00#8]) =
      some (s.sd, [.frame (p ++ [0x00#8] ++ q)]) := by
    rw [hs, encClosed, encClosed, ← frameBytes_append, sdRun_wireUnit _ hframe, framePayload_encBlocks_append,
      delimitedEvent_of_fits hfits]
  simpa using exec_feed_of_run ha hrun

end Sys2Proof.Machine
end
